-- ==== Sys2Proof/Word.lean ====
section
/-! DEFINITION. The word types of the block's ports and of its buffer (spec/00_scope.md R7, R11; spec/30_encoding.md R60, R61). -/

namespace Sys2Proof

/-- One command word on CMD: 32 bits, bit 0 least significant (R60). -/
abbrev Word := BitVec 32

/-- One buffer byte, one BYTE event's value, one DATA field (R11, R26, R124). -/
abbrev Byte := BitVec 8

/-- One response word on RSP: 16 bits (R61). -/
abbrev RspWord := BitVec 16

end Sys2Proof
end

