-- ==== Sys2Proof/Syntax.lean ====
section
/-! DEFINITION. The commands of the block (spec/30_encoding.md R60, R62 to R64), one constructor per row of
spec/opcode_table.json, and the assembler's command lines (R68, R69), which name operands that need not fit. -/

namespace Sys2Proof

/-- A command. Coordinates are unsigned integers (R10, R62): no operand is negative, scaled or sign-extended. -/
inductive Instr where
  /-- SETDOT X, Y, F (R106). -/
  | setdot (x y : Nat) (f : Bool)
  /-- SETBYTE C, R, V (R83). -/
  | setbyte (c r : Nat) (v : Byte)
  /-- GETBYTE C, R (R84). -/
  | getbyte (c r : Nat)
  /-- CLEAR (R150). -/
  | clear
  /-- FILL V (R151). -/
  | fill (v : Byte)
  /-- UPDATE (R127). -/
  | update
  deriving DecidableEq, Repr

/-- One line of assembly (R68), with the two pseudo-instructions of R69. Operands are the numbers written; whether they
fit their fields is the assembler's check. -/
inductive AsmLine where
  | setdot (x y fill : Nat)
  | setbyte (col row value : Nat)
  | getbyte (col row : Nat)
  | clear
  | fill (value : Nat)
  | update
  | doton (x y : Nat)
  | dotoff (x y : Nat)
  deriving DecidableEq, Repr

end Sys2Proof
end

