-- ==== Sys2Proof/WellFormed.lean ====
section
/-! DEFINITION. Which commands have an encoding: every operand fits its field (spec/30_encoding.md R60, R62, R68).
A coordinate that fits its field but lies outside the configuration's range is well formed: its command rule says what
happens then (R62). The value and fill operands fit by their types. -/

namespace Sys2Proof

/-- X and Y are 12-bit fields, C and R are 10-bit fields (R62; R68 "x or y > 4095, col or row > 1023"). -/
def Instr.wellFormed : Instr → Bool
  | .setdot x y _ => decide (x < 4096) && decide (y < 4096)
  | .setbyte c r _ => decide (c < 1024) && decide (r < 1024)
  | .getbyte c r => decide (c < 1024) && decide (r < 1024)
  | .clear => true
  | .fill _ => true
  | .update => true

end Sys2Proof
end

