-- ==== Sys2Proof/Decode.lean ====
section
/-! DEFINITION. The opcode map (spec/30_encoding.md R64), the total decoder (R65, R66) and the encoder (R70). -/

namespace Sys2Proof

/-- One row of the opcode map of R64. -/
structure OpcodeRow where
  mnemonic : String
  matchBits : Word
  maskBits : Word
  deriving DecidableEq, Repr

/-- A word selects a row exactly when (w & mask) = match (R64). -/
def OpcodeRow.selects (row : OpcodeRow) (w : Word) : Bool :=
  w &&& row.maskBits == row.matchBits

def rowSetdot : OpcodeRow := ⟨"SETDOT", 0x10000000#32, 0xFE000000#32⟩
def rowSetbyte : OpcodeRow := ⟨"SETBYTE", 0x20000000#32, 0xF0000000#32⟩
def rowGetbyte : OpcodeRow := ⟨"GETBYTE", 0x30000000#32, 0xFFF00000#32⟩
def rowClear : OpcodeRow := ⟨"CLEAR", 0x40000000#32, 0xFFFFFFFF#32⟩
def rowFill : OpcodeRow := ⟨"FILL", 0x50000000#32, 0xFFFFFF00#32⟩
def rowUpdate : OpcodeRow := ⟨"UPDATE", 0x60000000#32, 0xFFFFFFFF#32⟩

/-- The opcode map of R64, in the order a decoder tests it. -/
def opcodeRows : List OpcodeRow :=
  [rowSetdot, rowSetbyte, rowGetbyte, rowClear, rowFill, rowUpdate]

/-- The row a command belongs to. -/
def Instr.row : Instr → OpcodeRow
  | .setdot _ _ _ => rowSetdot
  | .setbyte _ _ _ => rowSetbyte
  | .getbyte _ _ => rowGetbyte
  | .clear => rowClear
  | .fill _ => rowFill
  | .update => rowUpdate

/-- Why a word is ILLEGAL (R65): its OP is 0x0 or 0x7 to 0xF, or its OP is legal and a reserved bit is 1. -/
inductive IllegalWord where
  | unassignedOp (op : BitVec 4)
  | reservedBits (op : BitVec 4)
  deriving DecidableEq, Repr

/-- What a word decodes to (R66). -/
inductive Decoded where
  | instr (i : Instr)
  | illegal (why : IllegalWord)
  deriving DecidableEq, Repr

/-- The field w[hi:lo] as an unsigned number (R11). -/
def wordField (w : Word) (hi lo : Nat) : Nat :=
  (w.extractLsb hi lo).toNat

/-- OP = w[31:28] (R60). -/
def opField (w : Word) : BitVec 4 := w.extractLsb 31 28

/-- The reason a word that selects no row is illegal (R65). -/
def illegalReason (w : Word) : IllegalWord :=
  if opField w = 0#4 ∨ 7#4 ≤ opField w then .unassignedOp (opField w) else .reservedBits (opField w)

/-- The decoder (R66): total, and a function of the word alone. Operands are the zero-extended fields of R62. -/
def decode (w : Word) : Decoded :=
  if rowSetdot.selects w then .instr (.setdot (wordField w 11 0) (wordField w 23 12) (w.getLsbD 24))
  else if rowSetbyte.selects w then .instr (.setbyte (wordField w 9 0) (wordField w 19 10) (w.extractLsb 27 20))
  else if rowGetbyte.selects w then .instr (.getbyte (wordField w 9 0) (wordField w 19 10))
  else if rowClear.selects w then .instr .clear
  else if rowFill.selects w then .instr (.fill (w.extractLsb 7 0))
  else if rowUpdate.selects w then .instr .update
  else .illegal (illegalReason w)

/-- An unsigned operand placed with its least significant bit at bit `lo` of a word (the shifts of R70). -/
def placeField (v lo : Nat) : Word := BitVec.ofNat 32 v <<< lo

/-- The encoder, by the formulas of R70. -/
def encode : Instr → Word
  | .setdot x y f => 0x10000000#32 ||| placeField f.toNat 24 ||| placeField y 12 ||| placeField x 0
  | .setbyte c r v => 0x20000000#32 ||| placeField v.toNat 20 ||| placeField r 10 ||| placeField c 0
  | .getbyte c r => 0x30000000#32 ||| placeField r 10 ||| placeField c 0
  | .clear => 0x40000000#32
  | .fill v => 0x50000000#32 ||| placeField v.toNat 0
  | .update => 0x60000000#32

/-- The command the decoder reads from an opcode-table word: `nbits` bits of `w`, the bits above them 0. CMD delivers
whole 32-bit words, so no byte order enters (R60). None where the decoder refuses, and for a number that is no 32-bit word. -/
def decodeTableWord (nbits w : Nat) : Option Instr :=
  if w % 2 ^ nbits < 2 ^ 32 then
    match decode (BitVec.ofNat 32 (w % 2 ^ nbits)) with
    | .instr i => some i
    | .illegal _ => none
  else none

end Sys2Proof
end

