-- ==== Sys2Proof/Config.lean ====
section
/-! DEFINITION. The configuration of an instance (spec/00_scope.md R8), the free values (spec/10_state.md R28) and
the configuration the model's reset state carries (log 2, log 3). -/

namespace Sys2Proof

/-- One entry of SEG_TABLE: a composite code and the segment bit it selects (R25, R105).
Its ranges, key < 32 and bit < 7, are checked by the configuration check (R9 (b)), not by the type. -/
structure SegEntry where
  key : Nat
  bit : Nat
  deriving DecidableEq, Repr

/-- The replaceable reorder policy (R120): the default SERP(G) (R121), or a table of N entries, slot j at place j (R25). -/
inductive ReorderPolicy where
  | serpentine (g : Nat)
  | table (entries : List Nat)
  deriving DecidableEq, Repr

/-- The configuration of R8, fixed for the life of an instance. -/
structure Config where
  /-- MC, modules per chain row. -/
  mc : Nat
  /-- MR, module rows. -/
  mr : Nat
  /-- SEG_TABLE, in entry order. -/
  segTable : List SegEntry
  /-- REORDER. -/
  reorder : ReorderPolicy
  /-- CS_ACTIVE_LEVEL, the electrical level of an asserted chip-select (OPEN, D16). -/
  csActiveLevel : Bool
  /-- BUS_CLOCK_HZ (OPEN; no rule depends on it, D16). -/
  busClockHz : Nat
  /-- CS_ID, the chip-select line (OPEN; no rule depends on it, D16). -/
  csId : Nat
  deriving DecidableEq, Repr

/-- The value drawn by the n-th buffer read for the bits of that byte that are undefined (R28, D11, U2).
A free value: it has no body, so nothing can be proved of it (log 4). -/
opaque Config.freeByte : Nat → Byte

/-- CS_ACTIVE_LEVEL of the reset state's configuration: OPEN in the spec, so a constant with no body (log 3). -/
opaque Config.openCsActiveLevel : Bool

/-- BUS_CLOCK_HZ of the reset state's configuration (log 3). -/
opaque Config.openBusClockHz : Nat

/-- CS_ID of the reset state's configuration (log 3). -/
opaque Config.openCsId : Nat

/-- T_EX, the spec's illustrative segment table (spec/95_test_vectors.md, D22): NOT the reference table, which is not in
the source. DESIGN CHOICE (log 2, unsafe for a claim about the reset state's table only). -/
def Config.testSegTable : List SegEntry :=
  [⟨1, 6⟩, ⟨6, 5⟩, ⟨14, 4⟩, ⟨17, 3⟩, ⟨12, 2⟩, ⟨4, 1⟩, ⟨9, 0⟩]

/-- The configuration `State.reset` carries: the test configuration of spec/95_test_vectors.md (MC = 2, MR = 2, T_EX,
SERP(10)). DESIGN CHOICE (log 2): the spec fixes no chain dimensions and no table. Every statement about commands holds for
every configuration; none rests on this one. -/
def Config.initial : Config where
  mc := 2
  mr := 2
  segTable := Config.testSegTable
  reorder := .serpentine 10
  csActiveLevel := Config.openCsActiveLevel
  busClockHz := Config.openBusClockHz
  csId := Config.openCsId

end Sys2Proof
end

