-- ==== Sys2Proof/Machine/State.lean ====
section
/-! DEFINITION. The block's state (spec/10_state.md R20, R31 to R33), the transfer in progress that R125 and R126 imply,
and the outside world as plain data (spec/00_scope.md R7). -/

namespace Sys2Proof.Machine

/-- One plane of the buffer in canonical form: offsets strictly rising, no entry 0x00; an unlisted offset reads 0x00. -/
abbrev Memory := List Host.Cell

/-- BUF (R26, R27): `data` holds the value of every defined bit and 0 for every undefined one; `known` holds the
definedness mark of every bit, 1 = defined. An unlisted byte is all undefined (log 5). -/
structure Buffer where
  data : Memory
  known : Memory
  deriving DecidableEq, Repr

/-- SER.phase (R31). -/
inductive Phase where
  | idle
  | run
  deriving DecidableEq, Repr

/-- SER.half (R31): which byte of the 2-byte command is next. -/
inductive Half where
  | addr
  | data
  deriving DecidableEq, Repr

/-- SER.cs (R31): the chip-select output as an abstract level. -/
inductive CsLevel where
  | deasserted
  | asserted
  deriving DecidableEq, Repr

/-- SER (R31): progress of an UPDATE in flight. -/
structure Ser where
  phase : Phase
  plane : Nat
  slot : Nat
  half : Half
  cs : CsLevel
  owned : Bool
  deriving DecidableEq, Repr

/-- PORT (R32): whether CMD accepts a command. -/
inductive Port where
  | ready
  | busy
  deriving DecidableEq, Repr

/-- An output event offered on TX (R124). -/
inductive TxEvent where
  | acquire
  | csAssert
  | byte (v : Byte)
  | csDeassert
  | release
  deriving DecidableEq, Repr

/-- An answer of the Transport to an offered event (R125). The third possibility, nothing, is the absence of an answer. -/
inductive TxAnswer where
  | accept
  | fail
  deriving DecidableEq, Repr

/-- An event the Transport has answered, with its answer. -/
structure TxRecord where
  event : TxEvent
  answer : TxAnswer
  deriving DecidableEq, Repr

/-- The machine's state. -/
structure State where
  /-- The configuration (R8): a parameter of the step relation (R20), carried here because `step` takes a state alone;
  no step changes it (log 1). -/
  cfg : Config
  /-- BUF (R26 to R28). -/
  buf : Buffer
  /-- FATAL (R23, R165). -/
  fatal : Bool
  /-- SER (R31). -/
  ser : Ser
  /-- PORT (R32). -/
  port : Port
  /-- The event now offered on TX and not yet answered (R124, R125; log 10). -/
  tx : Option TxEvent
  /-- TX_FAIL's cleanup is in progress: the event offered is a cleanup event (R126; log 10). -/
  cleanup : Bool
  /-- Command words offered on CMD and not yet accepted, oldest first (R7, R60; log 9). -/
  cmdIn : List Word
  /-- The Transport's coming answers, oldest first; `none` is a step at which it answers nothing (R125; log 7). -/
  txAns : List (Option TxAnswer)
  /-- The coming levels of RST, one a step; past the end RST is deasserted (R7, R180; log 8). -/
  rstIn : List Bool
  /-- The responses produced on RSP, oldest first (R61; log 11). -/
  rspOut : List RspWord
  /-- The TX events the Transport has answered, oldest first (R124, R125; log 11). -/
  txOut : List TxRecord
  /-- How many buffer reads have been made: the number of the next free draw (R28; log 4). -/
  draws : Nat
  deriving DecidableEq, Repr

/-- Why the machine stops with a fault. The block itself has no trap (R161): every error is a response. -/
inductive Fault where
  /-- A buffer access at an offset outside [0, L), which R26 says does not exist, or a slot for which REORDER names no
  module. Raised by the meanings of SETDOT and SETBYTE, GETBYTE, and by UPDATE's data bytes; reachable only in a state
  whose configuration is ill formed, which `step` refuses before (R9, R48). Safe (log 12). -/
  | outsideBuffer
  deriving DecidableEq, Repr

/-- Why the model refuses. -/
inductive Refusal where
  /-- An instruction whose arm has no meaning yet: raised by no arm of this model. Safe. -/
  | notModelled (mnemonic : String)
  /-- R9 (a): MC or MR outside R8's range. Raised by `step`. Safe: R9 gives no behaviour to such an instance. -/
  | illFormedDimensions
  /-- R9 (b): SEG_TABLE is not 7 entries with key < 32 and bit < 7. Raised by `step`. Safe. -/
  | illFormedSegTable
  /-- R9 (c): REORDER is not a bijection on [0, N), or SERP_G < 1. Raised by `step`. Safe. -/
  | illFormedReorder
  deriving DecidableEq, Repr

/-- SER after reset (R33): idle, chip-select deasserted, access not owned. plane, slot and half are unspecified and not
observable while idle: zero here, DESIGN CHOICE (log 6). -/
def Ser.reset : Ser where
  phase := .idle
  plane := 0
  slot := 0
  half := .addr
  cs := .deasserted
  owned := false

/-- An instance of configuration `c` right after reset (R33): every buffer bit undefined, FATAL = 0, SER idle, PORT ready,
nothing offered on TX, and nothing yet exchanged with the outside world. -/
def State.afterReset (c : Config) : State where
  cfg := c
  buf := ⟨[], []⟩
  fatal := false
  ser := Ser.reset
  port := .ready
  tx := none
  cleanup := false
  cmdIn := []
  txAns := []
  rstIn := []
  rspOut := []
  txOut := []
  draws := 0

/-- The machine right after reset, with the configuration of log 2. -/
def State.reset : State := State.afterReset Config.initial

end Sys2Proof.Machine
end

