-- ==== Sys2Proof/Machine/Flags.lean ====
section
/-! DEFINITION. The block's one flag, FATAL (spec/10_state.md R23, spec/60_exceptions.md R165), the STATUS codes (R160)
and the response word (spec/30_encoding.md R61). -/

namespace Sys2Proof.Machine

/-- STATUS (R160). Codes 5 to 15 are reserved and never produced. -/
inductive Status where
  | ok
  | errRange
  | errIllegal
  | errTransport
  | errFatal
  deriving DecidableEq, Repr

/-- RSP[11:8] (R160). -/
def Status.code : Status → BitVec 4
  | .ok => 0#4
  | .errRange => 1#4
  | .errIllegal => 2#4
  | .errTransport => 3#4
  | .errFatal => 4#4

/-- A response word: RSP[15:12] = 0000, RSP[11:8] = STATUS, RSP[7:0] = DATA (R61). -/
def rspWord (status : Status) (data : Byte) : RspWord := 0#4 ++ status.code ++ data

/-- FATAL <- 1 (R126): nothing but reset clears it (R165). -/
def State.setFatal (s : State) : State := { s with fatal := true }

end Sys2Proof.Machine
end

