-- ==== Sys2Proof/Machine/Operands.lean ====
section
/-! DEFINITION. The combinational parts of the block: the derived dimensions (spec/00_scope.md R8), the address unpacker
(spec/40_buffer_access.md R80, R82), the segment mapper (spec/41_segment_mapper.md R100 to R105, R109) and the reorder
policy (spec/42_frame_serializer.md R120, R121), with the configuration check of R9. -/

namespace Sys2Proof

/-- N = MC·MR, the modules in the chain (R8). -/
def Config.numModules (c : Config) : Nat := c.mc * c.mr

/-- L = 8·N, the buffer length in bytes (R8, R26). -/
def Config.bufLen (c : Config) : Nat := 8 * c.numModules

/-- DC = MC·4 (R8). -/
def Config.digitCols (c : Config) : Nat := c.mc * 4

/-- DR = MR·2 (R8). -/
def Config.digitRows (c : Config) : Nat := c.mr * 2

/-- W = MC·16 (R8). -/
def Config.pixelCols (c : Config) : Nat := c.mc * 16

/-- H = MR·12 (R8). -/
def Config.pixelRows (c : Config) : Nat := c.mr * 12

namespace Machine

/-- INRANGE_D(c, r) (R82). -/
def inRangeD (cfg : Config) (c r : Nat) : Bool :=
  decide (c < cfg.digitCols) && decide (r < cfg.digitRows)

/-- INRANGE_P(x, y) (R100). -/
def inRangeP (cfg : Config) (x y : Nat) : Bool :=
  decide (x < cfg.pixelCols) && decide (y < cfg.pixelRows)

/-- ADDR(c, r), the buffer offset of a digit-grid coordinate (R80). -/
def addr (cfg : Config) (c r : Nat) : Nat :=
  (r >>> 1) * (cfg.mc * 8) + (c >>> 2) * 8 + (c &&& 3) + (r &&& 1) * 4

/-- The module whose bank holds the digit (c, r): m = (r >> 1)·MC + (c >> 2) (R80, R30). -/
def digitModule (cfg : Config) (c r : Nat) : Nat := (r >>> 1) * cfg.mc + (c >>> 2)

/-- The digit's place k in its module's bank: k = (c & 3) + 4·(r & 1) (R80, R45). -/
def digitPlace (c r : Nat) : Nat := (c &&& 3) + 4 * (r &&& 1)

/-- ROWDIV6(y) = (y·342) >> 11, the product exact (R101; conflict C1: the multiply-shift wins). -/
def rowDiv6 (y : Nat) : Nat := (y * 342) >>> 11

/-- localX = x & 3 (R103). -/
def localX (x : Nat) : Nat := x &&& 3

/-- localY = y - ROWDIV6(y)·6 (R103). On naturals: under a well-formed configuration it is never negative (R102; log 16). -/
def localY (y : Nat) : Nat := y - rowDiv6 y * 6

/-- z = lx | (ly << 2) (R104). -/
def compositeCode (lx ly : Nat) : Nat := lx ||| (ly <<< 2)

/-- The composite code of a pixel (R103, R104). -/
def pixelCode (x y : Nat) : Nat := compositeCode (localX x) (localY y)

/-- The digit byte under a pixel: ADDR(x >> 2, ROWDIV6(y)) (R103, R106, R108). -/
def pixelOffset (cfg : Config) (x y : Nat) : Nat := addr cfg (x >>> 2) (rowDiv6 y)

/-- SEG_LOOKUP(z): the bit of the first entry whose key is z; none is a miss (R105). -/
def segLookup : List SegEntry → Nat → Option Nat
  | [], _ => none
  | e :: rest, z => if e.key = z then some e.bit else segLookup rest z

/-- SERP(G)(j) for a chain of n modules (R121), on integers: outside R122's condition it goes negative (conflict C2). -/
def serpentine (g n j : Nat) : Int :=
  let group := j / g
  let k := j % g
  let raw : Int := if group % 2 = 0 then (j : Int) else (group : Int) * g + (g - 1 - k)
  (n : Int) - 1 - raw

/-- REORDER(j) as the policy gives it (R120); a table names no module past its end. -/
def reorderValue (cfg : Config) (j : Nat) : Int :=
  match cfg.reorder with
  | .serpentine g => serpentine g cfg.numModules j
  | .table entries =>
    match entries[j]? with
    | some m => (m : Int)
    | none => -1

/-- displayIndex, the module sent in slot j (R120): none where REORDER names no module of the chain. -/
def displayIndex (cfg : Config) (j : Nat) : Option Nat :=
  let d := reorderValue cfg j
  if 0 ≤ d ∧ d < (cfg.numModules : Int) then some d.toNat else none

/-- R9 (a): 1 ≤ MC ≤ 256 and 1 ≤ MR ≤ 42 (R8, D5). -/
def dimensionsOk (cfg : Config) : Bool :=
  decide (1 ≤ cfg.mc) && decide (cfg.mc ≤ 256) && decide (1 ≤ cfg.mr) && decide (cfg.mr ≤ 42)

/-- R9 (b): exactly 7 entries, each key in [0, 32) and each bit in [0, 7) (R105, D9). -/
def segTableOk (table : List SegEntry) : Bool :=
  decide (table.length = 7) && table.all fun e => decide (e.key < 32) && decide (e.bit < 7)

/-- The shape of the policy: SERP_G ≥ 1 (R8), or a table of exactly N entries (R25). -/
def policyOk (cfg : Config) : Bool :=
  match cfg.reorder with
  | .serpentine g => decide (1 ≤ g)
  | .table entries => decide (entries.length = cfg.numModules)

/-- The modules sent in slots 0 to N - 1, in order. -/
def displayOrder (cfg : Config) : List (Option Nat) :=
  (List.range cfg.numModules).map (displayIndex cfg)

/-- R9 (c): REORDER is a bijection on [0, N) (R120): every slot names a module of the chain, and no two name the same. -/
def reorderOk (cfg : Config) : Bool :=
  policyOk cfg && (displayOrder cfg).all Option.isSome && decide (displayOrder cfg).Nodup

end Machine

open Machine in
/-- A configuration is well formed (R9). -/
def Config.wellFormed (c : Config) : Bool :=
  dimensionsOk c && segTableOk c.segTable && reorderOk c

namespace Machine

/-- The refusal of an ill-formed configuration, by the name of the first of R9's parts that fails, in R9's order
(log 15); none for a well-formed one. -/
def configProblem (c : Config) : Option Refusal :=
  if !dimensionsOk c then some .illFormedDimensions
  else if !segTableOk c.segTable then some .illFormedSegTable
  else if !reorderOk c then some .illFormedReorder
  else none

end Machine

end Sys2Proof
end

