-- ==== Sys2Proof/Machine/Ops.lean ====
section
/-! DEFINITION. The named operations of spec/00_scope.md R12 over memory, buffer and ports: BufRead, BufWrite, BufWriteBit,
respond, raise, emit; the failure path TX_FAIL (spec/42_frame_serializer.md R126), which is what an exception is on a block
without traps (spec/60_exceptions.md R161, R169); and reset (spec/70_reset_and_hazards.md R180). -/

namespace Sys2Proof.Machine

/-- The byte at an offset; an unlisted offset reads 0x00. -/
def Memory.read : Memory → Nat → Byte
  | [], _ => 0#8
  | (b, w) :: rest, a => if b = a then w else Memory.read rest a

/-- Stores a byte, keeping the canonical form: storing 0x00 removes the entry. -/
def Memory.write : Memory → Nat → Byte → Memory
  | [], a, v => if v = 0#8 then [] else [(a, v)]
  | (b, w) :: rest, a, v =>
    if a < b then (if v = 0#8 then (b, w) :: rest else (a, v) :: (b, w) :: rest)
    else if b = a then (if v = 0#8 then rest else (a, v) :: rest)
    else (b, w) :: Memory.write rest a v

/-- The canonical form: offsets strictly rising, no entry 0x00. -/
def Memory.wf : Memory → Bool
  | [] => true
  | (b, w) :: rest => decide (w ≠ 0#8) && rest.all (fun c => decide (b < c.1)) && Memory.wf rest

/-- The buffer's canonical form for a length of `len` bytes: both planes canonical, nothing listed at or past `len`, and an
undefined bit stored as 0. -/
def Buffer.wf (len : Nat) (b : Buffer) : Bool :=
  Memory.wf b.data && Memory.wf b.known
    && b.data.all (fun c => decide (c.1 < len) && decide (c.2 &&& ~~~ Memory.read b.known c.1 = 0#8))
    && b.known.all (fun c => decide (c.1 < len))

/-- The value a read of byte `o` returns when `free` is the fresh draw (R28): each defined bit as last written, each
undefined bit as drawn. A byte that is wholly defined is its data (the second form gives the same; the first needs no draw). -/
def Buffer.value (b : Buffer) (o : Nat) (free : Byte) : Byte :=
  if Memory.read b.known o = 0xFF#8 then Memory.read b.data o
  else (Memory.read b.data o &&& Memory.read b.known o) ||| (free &&& ~~~ Memory.read b.known o)

/-- BufWrite(o, v) on the buffer: all 8 bits written and marked defined (R12). -/
def Buffer.writeByte (b : Buffer) (o : Nat) (v : Byte) : Buffer :=
  ⟨Memory.write b.data o v, Memory.write b.known o 0xFF#8⟩

/-- The byte with only bit `k` set. -/
def bitMask (k : Nat) : Byte := 1#8 <<< k

/-- BufWriteBit(o, k, v) on the buffer: bit k written and marked defined, the other 7 bits and their marks unchanged (R12). -/
def Buffer.writeBit (b : Buffer) (o k : Nat) (v : Bool) : Buffer :=
  ⟨Memory.write b.data o
      (if v then Memory.read b.data o ||| bitMask k else Memory.read b.data o &&& ~~~ bitMask k),
    Memory.write b.known o (Memory.read b.known o ||| bitMask k)⟩

/-- for o in 0..len-1: BufWrite(o, v) (R150, R151). -/
def Buffer.writeAll (b : Buffer) (len : Nat) (v : Byte) : Buffer :=
  (List.range len).foldl (fun acc o => acc.writeByte o v) b

/-- BufRead(o): the byte and the state after the read, which has made one more draw (R12, R28); none outside [0, L) (log 12). -/
def State.bufRead (s : State) (o : Nat) : Option (Byte × State) :=
  if o < s.cfg.bufLen then
    some (s.buf.value o (Config.freeByte s.draws), { s with draws := s.draws + 1 })
  else none

/-- BufWrite(o, v); none outside [0, L) (R12; log 12). -/
def State.bufWrite (s : State) (o : Nat) (v : Byte) : Option State :=
  if o < s.cfg.bufLen then some { s with buf := s.buf.writeByte o v } else none

/-- BufWriteBit(o, k, v); none outside [0, L) (R12; log 12). -/
def State.bufWriteBit (s : State) (o k : Nat) (v : Bool) : Option State :=
  if o < s.cfg.bufLen then some { s with buf := s.buf.writeBit o k v } else none

/-- respond(status, data): the one response of the command in flight; the command ends and PORT is ready (R12, R32, R61). -/
def State.respond (s : State) (status : Status) (data : Byte) : State :=
  { s with rspOut := s.rspOut ++ [rspWord status data], port := .ready }

/-- raise E: respond(E, 0x00) with no other state change (R12, R161). -/
def raise (e : Status) (s : State) : Host.Outcome State Fault Refusal := .next (s.respond e 0x00#8)

/-- emit(ev): the event is offered on TX, where it stays until the Transport answers (R12, R125). -/
def State.offer (s : State) (ev : TxEvent) : State := { s with tx := some ev }

/-- The end of TX_FAIL (R126): SER idle with chip-select deasserted and access not owned, FATAL set, ERR_TRANSPORT. -/
def State.finishFail (s : State) : State :=
  (({ s with
      ser := { s.ser with phase := .idle, cs := .deasserted, owned := false }
      tx := none
      cleanup := false }).setFatal).respond .errTransport 0x00#8

/-- TX_FAIL(ev), entered when the Transport answers fail to ev (R126): the first cleanup event is offered, or there is
none to offer and the command ends. -/
def txFail (ev : TxEvent) (s : State) : State :=
  match ev with
  | .acquire => s.finishFail
  | .csAssert => ({ s with cleanup := true }).offer .csDeassert
  | .byte _ => ({ s with cleanup := true }).offer .csDeassert
  | .csDeassert => ({ s with cleanup := true }).offer .release
  | .release => s.finishFail

/-- An answer, accept or fail alike, to the cleanup event ev (R126: "answer ignored"): after CS_DEASSERT comes RELEASE,
after RELEASE the command ends. -/
def cleanupAnswered (ev : TxEvent) (s : State) : State :=
  match ev with
  | .csDeassert => s.offer .release
  | .acquire => s.finishFail
  | .csAssert => s.finishFail
  | .byte _ => s.finishFail
  | .release => s.finishFail

/-- RST asserted (R180): every piece of the block's state takes its value of R33 and the command in flight is abandoned
without a response. What stands outside the block stays: the configuration (R33), the words still offered on CMD, the
Transport's coming answers, and what has already been exchanged (log 8, log 9). The count of draws goes on, so that a
draw after a reset is a fresh one (R28; log 4). -/
def State.resetBlock (s : State) : State :=
  { State.afterReset s.cfg with
    cmdIn := s.cmdIn
    txAns := s.txAns
    rstIn := s.rstIn
    rspOut := s.rspOut
    txOut := s.txOut
    draws := s.draws }

/-- The level on the chip-select line: CS_ACTIVE_LEVEL when asserted, the other level when not (R8, R31; DEDUCED, log 17). -/
def State.csLevel (s : State) : Bool :=
  match s.ser.cs with
  | .asserted => s.cfg.csActiveLevel
  | .deasserted => !s.cfg.csActiveLevel

/-- The order in which the Transport shifts the bits of a BYTE event: most significant bit first (R41, R131). -/
def wireBits (v : Byte) : List Bool := (List.range 8).map fun k => v.getLsbD (7 - k)

end Sys2Proof.Machine
end

