-- ==== Sys2Proof/Machine/BufferAccess.lean ====
section
/-! DEFINITION. SETBYTE and GETBYTE (spec/40_buffer_access.md R83, R84). -/

namespace Sys2Proof.Machine

/-- SETBYTE C, R, V (R83). -/
def execSetbyte (c r : Nat) (v : Byte) (s : State) : Host.Outcome State Fault Refusal :=
  if s.fatal then raise .errFatal s
  else if !inRangeD s.cfg c r then raise .errRange s
  else
    match s.bufWrite (addr s.cfg c r) v with
    | some t => .next (t.respond .ok 0x00#8)
    | none => .fault .outsideBuffer

/-- GETBYTE C, R (R84). -/
def execGetbyte (c r : Nat) (s : State) : Host.Outcome State Fault Refusal :=
  if s.fatal then raise .errFatal s
  else if !inRangeD s.cfg c r then raise .errRange s
  else
    match s.bufRead (addr s.cfg c r) with
    | some (d, t) => .next (t.respond .ok d)
    | none => .fault .outsideBuffer

end Sys2Proof.Machine
end

