-- ==== Sys2Proof/Machine/BufferBulk.lean ====
section
/-! DEFINITION. CLEAR and FILL (spec/43_buffer_bulk.md R150, R151). -/

namespace Sys2Proof.Machine

/-- The loop of R150 and R151 over every offset of the buffer: no offset is outside [0, L). -/
def State.bufWriteAll (s : State) (v : Byte) : State :=
  { s with buf := s.buf.writeAll s.cfg.bufLen v }

/-- CLEAR (R150). -/
def execClear (s : State) : Host.Outcome State Fault Refusal :=
  if s.fatal then raise .errFatal s
  else .next ((s.bufWriteAll 0x00#8).respond .ok 0x00#8)

/-- FILL V (R151). -/
def execFill (v : Byte) (s : State) : Host.Outcome State Fault Refusal :=
  if s.fatal then raise .errFatal s
  else .next ((s.bufWriteAll v).respond .ok 0x00#8)

end Sys2Proof.Machine
end

