-- ==== Sys2Proof/Machine/SegmentMapper.lean ====
section
/-! DEFINITION. SETDOT (spec/41_segment_mapper.md R106). -/

namespace Sys2Proof.Machine

/-- SETDOT X, Y, F (R106). A pixel out of range and a table miss are silent no-ops (R100, R105, R166). -/
def execSetdot (x y : Nat) (f : Bool) (s : State) : Host.Outcome State Fault Refusal :=
  if s.fatal then raise .errFatal s
  else if !inRangeP s.cfg x y then .next (s.respond .ok 0x00#8)
  else
    match segLookup s.cfg.segTable (pixelCode x y) with
    | none => .next (s.respond .ok 0x00#8)
    | some k =>
      match s.bufWriteBit (pixelOffset s.cfg x y) k f with
      | some t => .next (t.respond .ok 0x00#8)
      | none => .fault .outsideBuffer

end Sys2Proof.Machine
end

