-- ==== Sys2Proof/Machine/Serializer.lean ====
section
/-! DEFINITION. UPDATE and the plane/slot sequencer (spec/42_frame_serializer.md R124 to R127). UPDATE's acceptance is one
step; each answer of the Transport to an offered event is one step (spec/70_reset_and_hazards.md R187). -/

namespace Sys2Proof.Machine

/-- UPDATE (R127): the command is accepted, SER runs from (plane, slot, half) = (0, 0, ADDR) (R22), and plane 0's ACQUIRE is
offered. PORT is not ready until the response (R32). -/
def execUpdate (s : State) : Host.Outcome State Fault Refusal :=
  if s.fatal then raise .errFatal s
  else .next (({ s with
    ser := { s.ser with phase := .run, plane := 0, slot := 0, half := .addr }
    port := .busy
    cleanup := false }).offer .acquire)

/-- emit(BYTE(i + 1)): the address byte of the slot's command (R127, R129). -/
def offerAddressByte (s : State) : State := s.offer (.byte (BitVec.ofNat 8 (s.ser.plane + 1)))

/-- emit(BYTE(BufRead(REORDER(j)·8 + i))): the data byte of the slot's command, read as it is offered (R127, R28; log 13). -/
def offerDataByte (s : State) : Host.Outcome State Fault Refusal :=
  match displayIndex s.cfg s.ser.slot with
  | none => .fault .outsideBuffer
  | some d =>
    match s.bufRead (d * 8 + s.ser.plane) with
    | some (v, t) => .next (t.offer (.byte v))
    | none => .fault .outsideBuffer

/-- The end of the UPDATE: SER idle, response OK (R127). -/
def State.finishUpdate (s : State) : State :=
  ({ s with ser := { s.ser with phase := .idle }, tx := none }).respond .ok 0x00#8

/-- The Transport has accepted ev: UPDATE goes on to its next event (R127). -/
def eventAccepted (ev : TxEvent) (s : State) : Host.Outcome State Fault Refusal :=
  match ev with
  | .acquire => .next (({ s with ser := { s.ser with owned := true } }).offer .csAssert)
  | .csAssert =>
    .next (offerAddressByte { s with ser := { s.ser with cs := .asserted, slot := 0, half := .addr } })
  | .byte _ =>
    match s.ser.half with
    | .addr => offerDataByte { s with ser := { s.ser with half := .data } }
    | .data =>
      if s.ser.slot + 1 < s.cfg.numModules then
        .next (offerAddressByte { s with ser := { s.ser with slot := s.ser.slot + 1, half := .addr } })
      else .next (s.offer .csDeassert)
  | .csDeassert => .next (({ s with ser := { s.ser with cs := .deasserted } }).offer .release)
  | .release =>
    if s.ser.plane + 1 < 8 then
      .next (({ s with
        ser := { s.ser with owned := false, plane := s.ser.plane + 1, slot := 0, half := .addr } }).offer .acquire)
    else .next ({ s with ser := { s.ser with owned := false } }).finishUpdate

/-- An answer to the event ev now offered (R125, R126). -/
def eventAnswered (ev : TxEvent) (a : TxAnswer) (s : State) : Host.Outcome State Fault Refusal :=
  if s.cleanup then .next (cleanupAnswered ev s)
  else
    match a with
    | .accept => eventAccepted ev s
    | .fail => .next (txFail ev s)

/-- The Transport's turn, with ev offered (R125): it answers, and the answer is recorded; or it answers nothing, and ev
stays offered (a stall, R170). -/
def transportTurn (ev : TxEvent) (s : State) : Host.Outcome State Fault Refusal :=
  match s.txAns with
  | [] => .next s
  | none :: rest => .next { s with txAns := rest }
  | some a :: rest => eventAnswered ev a { s with txAns := rest, txOut := s.txOut ++ [⟨ev, a⟩] }

end Sys2Proof.Machine
end

