-- ==== Sys2Proof/Machine/Dispatch.lean ====
section
/-! DEFINITION. The meaning of each command: one arm per constructor of Instr (spec/30_encoding.md R64). -/

namespace Sys2Proof.Machine

def exec (i : Instr) (s : State) : Host.Outcome State Fault Refusal :=
  match i with
  | .setdot x y f => Sys2Proof.Machine.execSetdot x y f s
  | .setbyte c r v => Sys2Proof.Machine.execSetbyte c r v s
  | .getbyte c r => Sys2Proof.Machine.execGetbyte c r s
  | .clear => Sys2Proof.Machine.execClear s
  | .fill v => Sys2Proof.Machine.execFill v s
  | .update => Sys2Proof.Machine.execUpdate s

end Sys2Proof.Machine
end

