-- ==== Sys2Proof/Machine/Command.lean ====
section
/-! DEFINITION. Accepting a command word from CMD, and the block's turn between resets (spec/10_state.md R32;
spec/30_encoding.md R65; spec/60_exceptions.md R167). -/

namespace Sys2Proof.Machine

/-- An illegal word is accepted and answered ERR_ILLEGAL, whatever FATAL is (R65, R163, R167). -/
def execIllegal (s : State) : Host.Outcome State Fault Refusal := raise .errIllegal s

/-- A word accepted from CMD: decode comes first (R167). -/
def runWord (w : Word) (s : State) : Host.Outcome State Fault Refusal :=
  match decode w with
  | .instr i => exec i s
  | .illegal _ => execIllegal s

/-- The block's turn while RST is deasserted. With an event offered the Transport's answer is awaited (R125). Otherwise CMD
accepts the next offered word if PORT is ready (R32); with no word offered, or PORT not ready, nothing happens (log 9, log 10). -/
def blockTurn (s : State) : Host.Outcome State Fault Refusal :=
  match s.tx with
  | some ev => transportTurn ev s
  | none =>
    match s.port with
    | .busy => .next s
    | .ready =>
      match s.cmdIn with
      | [] => .next s
      | w :: rest => runWord w { s with cmdIn := rest }

/-- A turn: RST is looked at first (R180: "at any time"); one level of it is used up (log 8). -/
def machineTurn (s : State) : Host.Outcome State Fault Refusal :=
  match s.rstIn with
  | true :: rest => .next { s with rstIn := rest }.resetBlock
  | false :: rest => blockTurn { s with rstIn := rest }
  | [] => blockTurn s

/-- The state with `w` the next word CMD accepts, at the very next turn: offered first, PORT ready, no UPDATE in flight and
RST deasserted. -/
def offerFirst (w : Word) (s : State) : State :=
  { s with
    cmdIn := w :: s.cmdIn
    port := .ready
    tx := none
    cleanup := false
    ser := { s.ser with phase := .idle, cs := .deasserted, owned := false }
    rstIn := [] }

end Sys2Proof.Machine
end

