-- ==== Sys2Proof/Machine/Step.lean ====
section
/-! DEFINITION. The step of the machine. -/

namespace Sys2Proof.Machine

/-- One step: an ill-formed configuration is refused by name before any command is stepped (R9); else one turn. -/
def step (s : State) : Host.Outcome State Fault Refusal :=
  match configProblem s.cfg with
  | some r => .refused r
  | none => machineTurn s

/-- The state whose very next step accepts and runs the word `w` (its bits above `nbits` zero). The block fetches no
instructions (R22): its commands come from CMD, so the word is placed first among those offered (log 9). -/
def State.withFetchWord (s : State) (nbits w : Nat) : State :=
  offerFirst (BitVec.ofNat 32 (w % 2 ^ nbits)) s

end Sys2Proof.Machine
end

