-- ==== Sys2Proof/Machine/Assembler.lean ====
section
/-! DEFINITION. The assembler of spec/30_encoding.md R68 to R70: one command per line, operands checked against their
fields, two pseudo-instructions. It is a host's tool: the block never sees it. -/

namespace Sys2Proof.Machine

/-- A pseudo-instruction expands to exactly one command line (R69). -/
def AsmLine.expand : AsmLine → AsmLine
  | .doton x y => .setdot x y 1
  | .dotoff x y => .setdot x y 0
  | line => line

/-- The command of a line, refused where an operand does not fit its field (R68). A value that fits its field but lies
outside the configuration's range is not refused (R68, R62). -/
def assembleExpanded : AsmLine → Option Instr
  | .setdot x y f => if x ≤ 4095 ∧ y ≤ 4095 ∧ f ≤ 1 then some (.setdot x y (f == 1)) else none
  | .setbyte c r v => if c ≤ 1023 ∧ r ≤ 1023 ∧ v ≤ 255 then some (.setbyte c r (BitVec.ofNat 8 v)) else none
  | .getbyte c r => if c ≤ 1023 ∧ r ≤ 1023 then some (.getbyte c r) else none
  | .clear => some .clear
  | .fill v => if v ≤ 255 then some (.fill (BitVec.ofNat 8 v)) else none
  | .update => some .update
  | .doton _ _ => none
  | .dotoff _ _ => none

def assemble (line : AsmLine) : Option Instr := assembleExpanded (AsmLine.expand line)

/-! The text of a line. The spec gives the mnemonics, the commas, decimal and 0x numbers and a comment after a semicolon;
blanks around mnemonic and operands, and capital mnemonics only, are the model's (log 18). -/

def isBlank (ch : Char) : Bool := ch == ' ' || ch == '\t'

def trimBlanks (cs : List Char) : List Char :=
  ((cs.dropWhile isBlank).reverse.dropWhile isBlank).reverse

/-- The parts of a line between commas. -/
def splitCommas : List Char → List (List Char)
  | [] => [[]]
  | ch :: rest =>
    match splitCommas rest with
    | [] => [[ch]]
    | part :: parts => if ch = ',' then [] :: part :: parts else (ch :: part) :: parts

def digitValue (ch : Char) : Option Nat :=
  let n := ch.toNat
  if 48 ≤ n ∧ n ≤ 57 then some (n - 48)
  else if 97 ≤ n ∧ n ≤ 102 then some (n - 87)
  else if 65 ≤ n ∧ n ≤ 70 then some (n - 55)
  else none

/-- The value of a string of digits in a base, `acc` read so far. -/
def digitsValue (base : Nat) : List Char → Nat → Option Nat
  | [], acc => some acc
  | ch :: rest, acc =>
    match digitValue ch with
    | some d => if d < base then digitsValue base rest (acc * base + d) else none
    | none => none

/-- A decimal or 0x-hex number (R68). -/
def parseNumber : List Char → Option Nat
  | [] => none
  | '0' :: 'x' :: [] => none
  | '0' :: 'x' :: ds => digitsValue 16 ds 0
  | ds => digitsValue 10 ds 0

def parseOperands : List (List Char) → Option (List Nat)
  | [] => some []
  | part :: parts =>
    match parseNumber (trimBlanks part), parseOperands parts with
    | some n, some ns => some (n :: ns)
    | _, _ => none

/-- Mnemonic and operands in the source's argument order (R68, R69). -/
def lineOf (mnemonic : List Char) (operands : List Nat) : Option AsmLine :=
  match mnemonic, operands with
  | ['S', 'E', 'T', 'D', 'O', 'T'], [x, y, f] => some (.setdot x y f)
  | ['S', 'E', 'T', 'B', 'Y', 'T', 'E'], [c, r, v] => some (.setbyte c r v)
  | ['G', 'E', 'T', 'B', 'Y', 'T', 'E'], [c, r] => some (.getbyte c r)
  | ['C', 'L', 'E', 'A', 'R'], [] => some .clear
  | ['F', 'I', 'L', 'L'], [v] => some (.fill v)
  | ['U', 'P', 'D', 'A', 'T', 'E'], [] => some .update
  | ['D', 'O', 'T', 'O', 'N'], [x, y] => some (.doton x y)
  | ['D', 'O', 'T', 'O', 'F', 'F'], [x, y] => some (.dotoff x y)
  | _, _ => none

/-- One line of assembly text (R68). -/
def parseLine (text : List Char) : Option AsmLine :=
  let line := trimBlanks (text.takeWhile (· ≠ ';'))
  let mnemonic := line.takeWhile fun ch => !isBlank ch
  let rest := trimBlanks (line.dropWhile fun ch => !isBlank ch)
  match (if rest = [] then some [] else parseOperands (splitCommas rest)) with
  | some operands => lineOf mnemonic operands
  | none => none

/-- The command word of one line of assembly text (R68 to R70). -/
def assembleText (text : List Char) : Option Word :=
  match parseLine text with
  | some line => (assemble line).map encode
  | none => none

end Sys2Proof.Machine
end

