-- ==== Sys2Proof/Safety.lean ====
section
/-! DEFINITION. What counts as a safe state of the machine, in the terms claims use: the buffer canonical, the transfer in
progress consistent with SER (spec/10_state.md R31, R32; spec/42_frame_serializer.md R124 to R127), and every response legal. -/

namespace Sys2Proof.Machine

/-- The data byte offered is the buffer's byte for the slot's module and the plane (R127), some free draw having been used
for its undefined bits (R28). -/
def offersBufferByte (s : State) (v : Byte) : Prop :=
  ∃ d, displayIndex s.cfg s.ser.slot = some d ∧ ∃ free, v = s.buf.value (d * 8 + s.ser.plane) free

/-- The event offered while an UPDATE runs, against SER: access is owned between ACQUIRE and RELEASE, chip-select is asserted
between CS_ASSERT and CS_DEASSERT, and a BYTE is the slot's address byte i + 1 or its data byte (R124, R127). -/
def runningConsistent (s : State) (ev : TxEvent) : Prop :=
  match ev with
  | .acquire => s.ser.owned = false ∧ s.ser.cs = .deasserted
  | .csAssert => s.ser.owned = true ∧ s.ser.cs = .deasserted
  | .byte v => s.ser.owned = true ∧ s.ser.cs = .asserted ∧
      (s.ser.half = .addr → v = BitVec.ofNat 8 (s.ser.plane + 1)) ∧
      (s.ser.half = .data → offersBufferByte s v)
  | .csDeassert => s.ser.owned = true ∧ s.ser.cs = .asserted
  | .release => s.ser.owned = true ∧ s.ser.cs = .deasserted

/-- The event offered while a failed UPDATE is cleaned up is CS_DEASSERT or RELEASE, and access is owned (R126). -/
def cleanupConsistent (s : State) (ev : TxEvent) : Prop :=
  (ev = .csDeassert ∨ ev = .release) ∧ s.ser.owned = true

/-- The transfer in progress. With no event offered the block is idle and ready (R32, R33); with one offered an UPDATE is in
flight: CMD not ready, FATAL 0, plane and slot in range (R31, R125). -/
def transferConsistent (s : State) : Prop :=
  match s.tx with
  | none => s.port = .ready ∧ s.ser.phase = .idle ∧ s.ser.cs = .deasserted ∧ s.ser.owned = false ∧ s.cleanup = false
  | some ev => s.port = .busy ∧ s.ser.phase = .run ∧ s.fatal = false ∧ s.ser.plane < 8 ∧ s.ser.slot < s.cfg.numModules ∧
      if s.cleanup then cleanupConsistent s ev else runningConsistent s ev

/-- The invariant of the machine. -/
structure State.Inv (s : State) : Prop where
  cfgOk : s.cfg.wellFormed = true
  bufOk : Buffer.wf s.cfg.bufLen s.buf = true
  transfer : transferConsistent s

/-! ## Responses -/

/-- RSP[15:12], reserved (R61). -/
def rspReserved (r : RspWord) : BitVec 4 := r.extractLsb 15 12

/-- RSP[11:8], STATUS (R61). -/
def rspStatus (r : RspWord) : BitVec 4 := r.extractLsb 11 8

/-- RSP[7:0], DATA (R61). -/
def rspData (r : RspWord) : Byte := r.extractLsb 7 0

/-- A response word the spec allows (R61, R160): reserved bits 0, STATUS 0 to 4, and DATA 0x00 unless STATUS is OK. -/
def legalResponse (r : RspWord) : Prop :=
  rspReserved r = 0#4 ∧ (rspStatus r).toNat ≤ 4 ∧ (rspStatus r ≠ 0#4 → rspData r = 0x00#8)

/-! ## What a step leaves as it was -/

/-- Everything but the buffer, PORT, the responses and the count of draws is unchanged. -/
def restUnchanged (s t : State) : Prop :=
  t.cfg = s.cfg ∧ t.fatal = s.fatal ∧ t.ser = s.ser ∧ t.tx = s.tx ∧ t.cleanup = s.cleanup ∧ t.cmdIn = s.cmdIn ∧
    t.txAns = s.txAns ∧ t.rstIn = s.rstIn ∧ t.txOut = s.txOut

/-- The command answered with this one response, and PORT is ready (R12, R32). -/
def answered (s t : State) (status : Status) (data : Byte) : Prop :=
  t.rspOut = s.rspOut ++ [rspWord status data] ∧ t.port = .ready

/-- Byte `o` holds the same value and the same definedness marks. -/
def byteUnchanged (s t : State) (o : Nat) : Prop :=
  Memory.read t.buf.data o = Memory.read s.buf.data o ∧ Memory.read t.buf.known o = Memory.read s.buf.known o

/-- The response is this one and nothing else of the state changed (R161). -/
def onlyAnswered (s t : State) (status : Status) (data : Byte) : Prop :=
  answered s t status data ∧ restUnchanged s t ∧ t.buf = s.buf ∧ t.draws = s.draws

/-! ## What CMD may accept now -/

/-- A well-formed instance with no command in flight, RST deasserted, and `w` the next word offered on CMD. -/
def acceptsNext (s : State) (w : Word) (rest : List Word) : Prop :=
  s.cfg.wellFormed = true ∧ s.tx = none ∧ s.port = .ready ∧ s.rstIn.head? ≠ some true ∧ s.cmdIn = w :: rest

/-- The state in which an accepted word is decoded: the word and one level of RST are used up. -/
def afterAccept (s : State) (rest : List Word) : State := { s with cmdIn := rest, rstIn := s.rstIn.tail }

/-! ## The output of a whole UPDATE (R127, R128) -/

/-- The data byte of slot j of plane i when the buffer is `s`'s: the byte of module REORDER(j), its undefined bits drawn by
the read that is the (i·N + j)-th of this UPDATE (R127, R28). -/
def sentByte (s : State) (i j : Nat) : Byte :=
  s.buf.value ((displayIndex s.cfg j).getD 0 * 8 + i) (Config.freeByte (s.draws + (i * s.cfg.numModules + j)))

/-- The two-byte command of slot j of plane i: (i + 1, data byte) (R127). -/
def slotCommand (s : State) (i j : Nat) : List TxEvent :=
  [.byte (BitVec.ofNat 8 (i + 1)), .byte (sentByte s i j)]

/-- Frame i: ACQUIRE, CS_ASSERT, 2N BYTE events, CS_DEASSERT, RELEASE (R124). -/
def planeFrame (s : State) (i : Nat) : List TxEvent :=
  [.acquire, .csAssert] ++ (List.range s.cfg.numModules).flatMap (slotCommand s i) ++ [.csDeassert, .release]

/-- The events of a whole UPDATE started in `s`: frames 0 to 7 in order (R127, R128). -/
def updateEvents (s : State) : List TxEvent := (List.range 8).flatMap (planeFrame s)

/-- The number of events of a whole UPDATE: 8·(2N + 4) (R128). -/
def updateLength (s : State) : Nat := 8 * (2 * s.cfg.numModules + 4)

/-- The cleanup events after the Transport fails ev (R126). -/
def cleanupEvents : TxEvent → List TxEvent
  | .acquire => []
  | .csAssert => [.csDeassert, .release]
  | .byte _ => [.csDeassert, .release]
  | .csDeassert => [.release]
  | .release => []

/-- The Transport's coming answers, each after a number of steps in which it answers nothing (a stall, R125; log 7). -/
def stalledAnswers (answers : List (Nat × TxAnswer)) : List (Option TxAnswer) :=
  answers.flatMap fun p => List.replicate p.1 none ++ [some p.2]

/-- The block is ready for a command, its SER idle with chip-select deasserted and access not owned, nothing offered. -/
def quiet (s : State) : Prop :=
  s.port = .ready ∧ s.tx = none ∧ s.cleanup = false ∧ s.ser.phase = .idle ∧ s.ser.cs = .deasserted ∧ s.ser.owned = false

end Sys2Proof.Machine
end

