-- ==== Sys2Proof/Certificates/Slice0/Obligations.lean ====
section
/-! DEFINITION. The statements for the provers, from the numbered rules of spec/. Every statement about a command holds for
every configuration; a statement about a free value holds for every value of it (log 4). -/

open Sys2Proof Sys2Proof.Machine

/-! ## Encoding (spec/30_encoding.md) -/

/-- Decoding an encoded well-formed command gives it back, every operand at every value its field admits (R60, R62, R70). -/
def Obligations.DecodeOfEncode : Prop :=
  ∀ i : Instr, i.wellFormed = true → decode (encode i) = .instr i

/-- A word that decodes to a command is that command's encoding, and the command is well formed: each accepted word means one
thing and no bit of it is dropped (R60, R65). -/
def Obligations.EncodeOfDecode : Prop :=
  ∀ (w : Word) (i : Instr), decode w = .instr i → i.wellFormed = true ∧ encode i = w

/-- R64: a word selects a mnemonic exactly when (w & mask) = match, and at most one row matches any word. -/
def Obligations.AtMostOneRowMatches : Prop :=
  ∀ w : Word,
    (∀ r₁ ∈ opcodeRows, ∀ r₂ ∈ opcodeRows, r₁.selects w = true → r₂.selects w = true → r₁ = r₂) ∧
    (∀ row ∈ opcodeRows, w &&& row.maskBits = row.matchBits ↔ ∃ i, decode w = .instr i ∧ i.row = row)

/-- R62, R63: every operand is its zero-extended field; F = 1 means fill. -/
def Obligations.OperandsAreZeroExtendedFields : Prop :=
  ∀ w : Word,
    (∀ x y f, decode w = .instr (.setdot x y f) →
      x = w.toNat % 2 ^ 12 ∧ y = w.toNat / 2 ^ 12 % 2 ^ 12 ∧ (f = true ↔ w.toNat / 2 ^ 24 % 2 = 1)) ∧
    (∀ c r v, decode w = .instr (.setbyte c r v) →
      c = w.toNat % 2 ^ 10 ∧ r = w.toNat / 2 ^ 10 % 2 ^ 10 ∧ v.toNat = w.toNat / 2 ^ 20 % 2 ^ 8) ∧
    (∀ c r, decode w = .instr (.getbyte c r) → c = w.toNat % 2 ^ 10 ∧ r = w.toNat / 2 ^ 10 % 2 ^ 10) ∧
    (∀ v, decode w = .instr (.fill v) → v.toNat = w.toNat % 2 ^ 8)

/-- R65: a word is ILLEGAL exactly when its OP is 0x0 or 0x7 to 0xF, or a reserved bit of a legal OP is 1 (the reserved
fields of R60). -/
def Obligations.IllegalExactlyOutsideTheMap : Prop :=
  ∀ w : Word, (∃ why, decode w = .illegal why) ↔
    (w.toNat / 2 ^ 28 = 0 ∨ 7 ≤ w.toNat / 2 ^ 28 ∨
      (w.toNat / 2 ^ 28 = 1 ∧ w.toNat / 2 ^ 25 % 2 ^ 3 ≠ 0) ∨
      (w.toNat / 2 ^ 28 = 3 ∧ w.toNat / 2 ^ 20 % 2 ^ 8 ≠ 0) ∨
      ((w.toNat / 2 ^ 28 = 4 ∨ w.toNat / 2 ^ 28 = 6) ∧ w.toNat % 2 ^ 28 ≠ 0) ∨
      (w.toNat / 2 ^ 28 = 5 ∧ w.toNat / 2 ^ 8 % 2 ^ 20 ≠ 0))

/-- R70: the encoding formulas, on numbers. -/
def Obligations.EncodingFormulas : Prop :=
  (∀ x y f, (Instr.setdot x y f).wellFormed = true →
    (encode (.setdot x y f)).toNat = 0x10000000 ||| (f.toNat <<< 24) ||| (y <<< 12) ||| x) ∧
  (∀ c r v, (Instr.setbyte c r v).wellFormed = true →
    (encode (.setbyte c r v)).toNat = 0x20000000 ||| (v.toNat <<< 20) ||| (r <<< 10) ||| c) ∧
  (∀ c r, (Instr.getbyte c r).wellFormed = true → (encode (.getbyte c r)).toNat = 0x30000000 ||| (r <<< 10) ||| c) ∧
  (encode .clear).toNat = 0x40000000 ∧
  (∀ v, (encode (.fill v)).toNat = 0x50000000 ||| v.toNat) ∧
  (encode .update).toNat = 0x60000000

/-- Words written out from the tables of R60 and 95_test_vectors.md 2.10 decode to the commands they stand for. -/
def Obligations.SpecWordsDecode : Prop :=
  decode 0x11006005#32 = .instr (.setdot 5 6 true) ∧
  decode 0x22200404#32 = .instr (.setbyte 4 1 0x22#8) ∧
  decode 0x30000401#32 = .instr (.getbyte 1 1) ∧
  decode 0x40000000#32 = .instr .clear ∧
  decode 0x500000FF#32 = .instr (.fill 0xFF#8) ∧
  decode 0x60000000#32 = .instr .update ∧
  decode 0x00000000#32 = .illegal (.unassignedOp 0#4) ∧
  decode 0x30100000#32 = .illegal (.reservedBits 3#4)

/-- R68, R69: the assembler refuses a line exactly when an operand does not fit its field; a line it takes is the command of
its mnemonic with the operands in the order written, and well formed; DOTON and DOTOFF are SETDOT with fill 1 and 0. -/
def Obligations.AssemblerChecksOperands : Prop :=
  (∀ x y f, assemble (.setdot x y f) = none ↔ x > 4095 ∨ y > 4095 ∨ f > 1) ∧
  (∀ c r v, assemble (.setbyte c r v) = none ↔ c > 1023 ∨ r > 1023 ∨ v > 255) ∧
  (∀ c r, assemble (.getbyte c r) = none ↔ c > 1023 ∨ r > 1023) ∧
  (∀ v, assemble (.fill v) = none ↔ v > 255) ∧
  (∀ x y f, x ≤ 4095 → y ≤ 4095 → f ≤ 1 → assemble (.setdot x y f) = some (.setdot x y (f == 1))) ∧
  (∀ c r v, c ≤ 1023 → r ≤ 1023 → v ≤ 255 →
    assemble (.setbyte c r v) = some (.setbyte c r (BitVec.ofNat 8 v))) ∧
  (∀ c r, c ≤ 1023 → r ≤ 1023 → assemble (.getbyte c r) = some (.getbyte c r)) ∧
  (∀ v, v ≤ 255 → assemble (.fill v) = some (.fill (BitVec.ofNat 8 v))) ∧
  assemble .clear = some .clear ∧ assemble .update = some .update ∧
  (∀ line i, assemble line = some i → i.wellFormed = true) ∧
  (∀ x y, assemble (.doton x y) = assemble (.setdot x y 1) ∧ assemble (.dotoff x y) = assemble (.setdot x y 0))

/-! ## The step -/

/-- A step of a ready instance runs the command its next word decodes to; what the step adds is that the word and one level of
RST are used up (R32, R47). -/
def Obligations.StepRunsTheDecodedCommand : Prop :=
  ∀ (s : State) (w : Word) (rest : List Word) (i : Instr), acceptsNext s w rest → decode w = .instr i →
    step s = exec i (afterAccept s rest)

/-- R163: an illegal word is answered ERR_ILLEGAL with DATA 0x00 and changes no state, whatever FATAL is. -/
def Obligations.IllegalWordAnswersErrIllegal : Prop :=
  ∀ (s : State) (w : Word) (rest : List Word), acceptsNext s w rest →
    (w.toNat / 2 ^ 28 = 0 ∨ 7 ≤ w.toNat / 2 ^ 28 ∨
      (w.toNat / 2 ^ 28 = 1 ∧ w.toNat / 2 ^ 25 % 2 ^ 3 ≠ 0) ∨
      (w.toNat / 2 ^ 28 = 3 ∧ w.toNat / 2 ^ 20 % 2 ^ 8 ≠ 0) ∨
      ((w.toNat / 2 ^ 28 = 4 ∨ w.toNat / 2 ^ 28 = 6) ∧ w.toNat % 2 ^ 28 ≠ 0) ∨
      (w.toNat / 2 ^ 28 = 5 ∧ w.toNat / 2 ^ 8 % 2 ^ 20 ≠ 0)) →
    ∃ t, step s = .next t ∧ onlyAnswered (afterAccept s rest) t .errIllegal 0x00#8

/-- R9: an instance is refused exactly when its configuration is ill formed: MC or MR out of range, SEG_TABLE not 7 entries
with key < 32 and bit < 7, or REORDER not a bijection on [0, N); for SERP(G) the last is N mod 2G > G. That a REORDER table of
a length other than N (R25) and SERP_G = 0 (R8) are refused too, as policyOk says, is the model's choice (log 15). -/
def Obligations.IllFormedConfigurationIsRefused : Prop :=
  ∀ s : State,
    ((∃ r, step s = .refused r) ↔
      ¬ ((1 ≤ s.cfg.mc ∧ s.cfg.mc ≤ 256 ∧ 1 ≤ s.cfg.mr ∧ s.cfg.mr ≤ 42) ∧
        (s.cfg.segTable.length = 7 ∧ ∀ e ∈ s.cfg.segTable, e.key < 32 ∧ e.bit < 7) ∧
        policyOk s.cfg = true ∧
        (∀ j < s.cfg.numModules, 0 ≤ reorderValue s.cfg j ∧ reorderValue s.cfg j < s.cfg.numModules) ∧
        (∀ j < s.cfg.numModules, ∀ k < s.cfg.numModules, reorderValue s.cfg j = reorderValue s.cfg k → j = k))) ∧
    (∀ g, 1 ≤ g → s.cfg.reorder = .serpentine g →
      (1 ≤ s.cfg.mc ∧ s.cfg.mc ≤ 256 ∧ 1 ≤ s.cfg.mr ∧ s.cfg.mr ≤ 42) →
      (s.cfg.segTable.length = 7 ∧ ∀ e ∈ s.cfg.segTable, e.key < 32 ∧ e.bit < 7) →
      ((∃ r, step s = .refused r) ↔ g < s.cfg.numModules % (2 * g)))

/-- R33: after RST, whatever was in flight, every buffer bit is undefined, FATAL is 0, SER is idle with chip-select deasserted
and access not owned, and PORT is ready; the configuration is unaffected. No response and no TX event is made, the event
offered is withdrawn, and the words still offered on CMD stay offered (R180; the last is the model's, log 9). -/
def Obligations.ResetGivesTheResetValues : Prop :=
  ∀ (s : State) (rest : List Bool), s.cfg.wellFormed = true → s.rstIn = true :: rest →
    ∃ t, step s = .next t ∧ (∀ o, Memory.read t.buf.known o = 0x00#8) ∧ t.fatal = false ∧ quiet t ∧
      t.cfg = s.cfg ∧ t.rspOut = s.rspOut ∧ t.txOut = s.txOut ∧ t.cmdIn = s.cmdIn ∧ t.rstIn = rest

/-- The model's reset state is an instance right after reset: R33's values, nothing exchanged yet, and the invariant. Its
configuration is the model's choice (log 2). -/
def Obligations.ResetStateIsSafe : Prop :=
  (∀ o, Memory.read State.reset.buf.known o = 0x00#8) ∧ State.reset.fatal = false ∧ quiet State.reset ∧
    State.reset.rspOut = [] ∧ State.reset.txOut = [] ∧ State.reset.Inv

/-- From every safe state every step keeps the invariant: canonical buffer, access owned and chip-select asserted around every
BYTE, plane and slot in range, PORT ready exactly when nothing is in flight. -/
def Obligations.StepKeepsTheInvariant : Prop :=
  ∀ s t : State, s.Inv → step s = .next t → t.Inv

/-- R161: the block has no trap: from every safe state a step answers a next state, never a fault or a refusal. -/
def Obligations.SafeStatesNeverStop : Prop :=
  ∀ s : State, s.Inv → ∃ t, step s = .next t

/-- In a safe state PORT is ready exactly when no command is in flight, and while one is in flight no word is accepted and the
buffer is not written, unless RST is asserted (R32). -/
def Obligations.NothingIsAcceptedWhileInFlight : Prop :=
  ∀ s : State, s.Inv →
    (s.port = .ready ↔ s.ser.phase = .idle) ∧
    (∀ t, s.ser.phase = .run → s.rstIn.head? ≠ some true → step s = .next t →
      t.cmdIn = s.cmdIn ∧ t.buf = s.buf)

/-- R170: while the Transport answers nothing the event stays offered, nothing is raised or answered, and the block does not
become ready, for any number of steps without RST. -/
def Obligations.StallIsAHang : Prop :=
  ∀ (s : State) (ev : TxEvent) (n : Nat), s.Inv → s.tx = some ev → (∀ a ∈ s.txAns, a = none) → true ∉ s.rstIn →
    ∃ t, Sys2Proof.core.run n s = .next t ∧ t.tx = some ev ∧ t.port = .busy ∧ t.ser = s.ser ∧ t.fatal = s.fatal ∧
      t.buf = s.buf ∧ t.rspOut = s.rspOut ∧ t.txOut = s.txOut ∧ t.cmdIn = s.cmdIn

/-- Exactly one response per accepted command (R61): without RST, the words waiting, the command in flight and the responses
made are together as many after a step as before. -/
def Obligations.OneResponsePerCommand : Prop :=
  ∀ s t : State, s.rstIn.head? ≠ some true → step s = .next t →
    t.cmdIn.length + (if t.tx.isSome then 1 else 0) + t.rspOut.length =
      s.cmdIn.length + (if s.tx.isSome then 1 else 0) + s.rspOut.length

/-- R61, R160: a step makes at most one response, after those before it, and its reserved bits are 0, its STATUS 0 to 4, and
its DATA 0x00 unless STATUS is OK. -/
def Obligations.ResponsesAreLegal : Prop :=
  ∀ s t : State, step s = .next t →
    t.rspOut = s.rspOut ∨ ∃ r, t.rspOut = s.rspOut ++ [r] ∧ legalResponse r

/-- R165: while FATAL is 1 every legal command answers ERR_FATAL with DATA 0x00 and changes no state, an illegal word still
answers ERR_ILLEGAL, and only reset clears FATAL. -/
def Obligations.FatalIsSticky : Prop :=
  (∀ (i : Instr) (s : State), s.fatal = true → ∃ t, exec i s = .next t ∧ onlyAnswered s t .errFatal 0x00#8) ∧
  (∀ (s : State) (w : Word) (rest : List Word) (why : IllegalWord), s.fatal = true → acceptsNext s w rest →
    decode w = .illegal why → ∃ t, step s = .next t ∧ onlyAnswered (afterAccept s rest) t .errIllegal 0x00#8) ∧
  (∀ s t : State, s.fatal = true → step s = .next t → t.fatal = true ∨ ∃ rest, s.rstIn = true :: rest)

/-- FATAL is set only by the end of a failed UPDATE, which answers ERR_TRANSPORT: the Transport fails the event offered now, or
the cleanup of an event it failed is under way; and a cleanup begins only when the Transport fails an event (R23, R126). -/
def Obligations.OnlyTransportFailureSetsFatal : Prop :=
  ∀ s t : State, step s = .next t →
    (s.fatal = false → t.fatal = true →
      s.tx.isSome ∧ (s.cleanup = true ∨ ∃ rest, s.txAns = some .fail :: rest) ∧
        answered s t .errTransport 0x00#8 ∧ t.buf = s.buf) ∧
    (s.cleanup = false → t.cleanup = true → s.tx.isSome ∧ ∃ rest, s.txAns = some .fail :: rest)

/-- R167: of several causes the first of ERR_ILLEGAL, ERR_FATAL, ERR_RANGE, ERR_TRANSPORT is reported. -/
def Obligations.ErrorPriority : Prop :=
  ∀ (s : State) (w : Word) (rest : List Word), acceptsNext s w rest →
    (∀ why, decode w = .illegal why → ∃ t, step s = .next t ∧ answered s t .errIllegal 0x00#8) ∧
    (∀ i, decode w = .instr i → s.fatal = true → ∃ t, step s = .next t ∧ answered s t .errFatal 0x00#8) ∧
    (∀ i, decode w = .instr i → s.fatal = false →
      (∃ c r, (i = .getbyte c r ∨ ∃ v, i = .setbyte c r v) ∧ ¬ (c < s.cfg.digitCols ∧ r < s.cfg.digitRows)) →
      ∃ t, step s = .next t ∧ answered s t .errRange 0x00#8) ∧
    (∀ t, step s = .next t → ¬ answered s t .errTransport 0x00#8)

/-- No step changes the configuration: the block's two tables are written by no command (R25, R53), and reset leaves them. -/
def Obligations.ConfigurationIsFixed : Prop :=
  ∀ s t : State, step s = .next t → t.cfg = s.cfg

/-- A defined bit stays defined until reset, with or without an UPDATE in flight (R27). -/
def Obligations.DefinedBitsStayDefined : Prop :=
  ∀ s t : State, s.Inv → s.rstIn.head? ≠ some true → step s = .next t →
    ∀ o k, (Memory.read s.buf.known o).getLsbD k = true → (Memory.read t.buf.known o).getLsbD k = true

/-! ## Addressing and the mapper's combinational parts -/

/-- R81: ADDR is a bijection from [0, DC) × [0, DR) onto [0, L). -/
def Obligations.AddrIsABijection : Prop :=
  ∀ cfg : Config,
    (∀ c r, c < cfg.digitCols → r < cfg.digitRows → addr cfg c r < cfg.bufLen) ∧
    (∀ c r c' r', c < cfg.digitCols → r < cfg.digitRows → c' < cfg.digitCols → r' < cfg.digitRows →
      addr cfg c r = addr cfg c' r' → c = c' ∧ r = r') ∧
    (∀ o < cfg.bufLen, ∃ c r, c < cfg.digitCols ∧ r < cfg.digitRows ∧ addr cfg c r = o)

/-- R80: ADDR(c, r) is the source's formula, is 8·m + k with m = (r div 2)·MC + c div 4 and k = (c mod 4) + 4·(r mod 2), and
needs at most 17 bits in range under R8's limits. -/
def Obligations.AddrFormula : Prop :=
  ∀ (cfg : Config) (c r : Nat),
    addr cfg c r = r / 2 * (cfg.mc * 8) + c / 4 * 8 + c % 4 + r % 2 * 4 ∧
    addr cfg c r = 8 * (r / 2 * cfg.mc + c / 4) + (c % 4 + 4 * (r % 2)) ∧
    (addr cfg c r % 4 = c % 4 ∧ addr cfg c r / 4 % 2 = r % 2 ∧ addr cfg c r / 8 = r / 2 * cfg.mc + c / 4) ∧
    (cfg.mc ≤ 256 → cfg.mr ≤ 42 → c < cfg.digitCols → r < cfg.digitRows →
      addr cfg c r < cfg.bufLen ∧ addr cfg c r < 2 ^ 17)

/-- Offset 8m + k holds the digit at local column k mod 4 and local row k div 4 of module m's 4 × 2 block, whose columns start
at 4·(m mod MC) and whose rows start at 2·(m div MC) (R45, R30). -/
def Obligations.ModuleBankMap : Prop :=
  ∀ (cfg : Config) (m k : Nat), m < cfg.numModules → k < 8 →
    4 * (m % cfg.mc) + k % 4 < cfg.digitCols ∧ 2 * (m / cfg.mc) + k / 4 < cfg.digitRows ∧
    addr cfg (4 * (m % cfg.mc) + k % 4) (2 * (m / cfg.mc) + k / 4) = 8 * m + k

/-- R102: ROWDIV6(y) = y div 6 for every y < 515, and 515 is the least y where they differ. -/
def Obligations.RowDividerIsDivisionBySix : Prop :=
  (∀ y < 515, rowDiv6 y = y / 6) ∧ rowDiv6 515 = 86 ∧ 515 / 6 = 85 ∧
  (∀ (cfg : Config) (y : Nat), cfg.mr ≤ 42 → y < cfg.pixelRows → rowDiv6 y = y / 6)

/-- R103: for an in-range pixel under R8's limits, c and r lie in the digit grid, localX = x mod 4, and y - 6·r is not
negative and is y mod 6. -/
def Obligations.LocalCoordinates : Prop :=
  ∀ (cfg : Config) (x y : Nat), cfg.mr ≤ 42 → x < cfg.pixelCols → y < cfg.pixelRows →
    x >>> 2 < cfg.digitCols ∧ rowDiv6 y < cfg.digitRows ∧ localX x = x % 4 ∧ rowDiv6 y * 6 ≤ y ∧ localY y = y % 6

/-- R104: z = lx + 4·ly, a bijection from the 4 × 6 cell onto [0, 24). -/
def Obligations.CompositeCodeIsABijection : Prop :=
  (∀ lx ly, lx < 4 → ly < 6 → compositeCode lx ly = lx + 4 * ly ∧ compositeCode lx ly < 24) ∧
  (∀ lx ly lx' ly', lx < 4 → ly < 6 → lx' < 4 → ly' < 6 → compositeCode lx ly = compositeCode lx' ly' →
    lx = lx' ∧ ly = ly') ∧
  (∀ z < 24, ∃ lx ly, lx < 4 ∧ ly < 6 ∧ compositeCode lx ly = z)

/-- R105: SEG_LOOKUP answers the bit of the least entry whose key is z, or a miss when no key is z; a well-formed table has 7
entries with key < 32 and bit ≤ 6; and a key of 24 or more never hits an in-range pixel. -/
def Obligations.SegLookupIsFirstMatch : Prop :=
  (∀ (table : List SegEntry) (z k : Nat), segLookup table z = some k ↔
    ∃ e : Nat, table[e]? = some (SegEntry.mk z k) ∧ ∀ e' < e, ∀ entry, table[e']? = some entry → entry.key ≠ z) ∧
  (∀ (table : List SegEntry) (z : Nat), segLookup table z = none ↔ ∀ entry ∈ table, entry.key ≠ z) ∧
  (∀ cfg : Config, cfg.wellFormed = true →
    cfg.segTable.length = 7 ∧ (∀ entry ∈ cfg.segTable, entry.key < 32 ∧ entry.bit ≤ 6) ∧
    ∀ x y, x < cfg.pixelCols → y < cfg.pixelRows → pixelCode x y < 24)

/-- The byte under an in-range pixel is digit k = ((x >> 2) & 3) + 4·(r & 1) of module m = (r >> 1)·MC + (x >> 4), with
r = ROWDIV6(y), and m is a module of the chain (R109). -/
def Obligations.PixelTarget : Prop :=
  ∀ (cfg : Config) (x y : Nat), cfg.mr ≤ 42 → x < cfg.pixelCols → y < cfg.pixelRows →
    pixelOffset cfg x y = 8 * ((rowDiv6 y >>> 1) * cfg.mc + (x >>> 4)) + (((x >>> 2) &&& 3) + 4 * (rowDiv6 y &&& 1)) ∧
    (rowDiv6 y >>> 1) * cfg.mc + (x >>> 4) < cfg.numModules

/-! ## The reorder policy (spec/42_frame_serializer.md) -/

/-- R122: SERP(G) is a bijection on [0, N) exactly when N mod 2G ≤ G. -/
def Obligations.SerpentineBijectionCondition : Prop :=
  ∀ g n : Nat, 1 ≤ g →
    (((∀ j < n, 0 ≤ serpentine g n j ∧ serpentine g n j < n) ∧
      ∀ j < n, ∀ k < n, serpentine g n j = serpentine g n k → j = k) ↔ n % (2 * g) ≤ g)

/-- The values of SERP(G): N - 1 - j in an even group, N - 2gG - G + j in an odd group g; for N ≤ 10 SERP(10) is the full
reversal, and for N = 20 the source's formula, not its printed list (R123, conflict C3). -/
def Obligations.SerpentineValues : Prop :=
  (∀ g n j : Nat, 1 ≤ g → j / g % 2 = 0 → serpentine g n j = (n : Int) - 1 - j) ∧
  (∀ g n j : Nat, 1 ≤ g → j / g % 2 = 1 → serpentine g n j = (n : Int) - 2 * (j / g : Nat) * g - g + j) ∧
  (∀ n ≤ 10, ∀ j < n, serpentine 10 n j = (n : Int) - 1 - j) ∧
  (List.range 20).map (serpentine 10 20) = [19, 18, 17, 16, 15, 14, 13, 12, 11, 10, 0, 1, 2, 3, 4, 5, 6, 7, 8, 9]

/-- In a well-formed configuration each buffer byte is the data byte of exactly one slot of one plane (R43, R128). -/
def Obligations.EachByteIsSentOnce : Prop :=
  ∀ cfg : Config, cfg.wellFormed = true → ∀ o < cfg.bufLen,
    ∃ i j d, i < 8 ∧ j < cfg.numModules ∧ displayIndex cfg j = some d ∧ d * 8 + i = o ∧
      ∀ i' j' d', i' < 8 → j' < cfg.numModules → displayIndex cfg j' = some d' → d' * 8 + i' = o → i' = i ∧ j' = j

/-! ## The commands -/

/-- R83 SETBYTE, for every state: with FATAL, ERR_FATAL; out of the grid, ERR_RANGE; else byte ADDR(C, R) is V with all 8 bits
defined, every other byte is as it was, and the answer is OK with DATA 0x00. -/
def Obligations.SetbyteMeaning : Prop :=
  ∀ (c r : Nat) (v : Byte) (s : State),
    (s.fatal = true → ∃ t, exec (.setbyte c r v) s = .next t ∧ onlyAnswered s t .errFatal 0x00#8) ∧
    (s.fatal = false → ¬ (c < s.cfg.digitCols ∧ r < s.cfg.digitRows) →
      ∃ t, exec (.setbyte c r v) s = .next t ∧ onlyAnswered s t .errRange 0x00#8) ∧
    (s.fatal = false → c < s.cfg.digitCols → r < s.cfg.digitRows → Buffer.wf s.cfg.bufLen s.buf = true →
      ∃ t, exec (.setbyte c r v) s = .next t ∧ answered s t .ok 0x00#8 ∧ restUnchanged s t ∧ t.draws = s.draws ∧
        Memory.read t.buf.data (addr s.cfg c r) = v ∧ Memory.read t.buf.known (addr s.cfg c r) = 0xFF#8 ∧
        ∀ o, o ≠ addr s.cfg c r → byteUnchanged s t o)

/-- R84 GETBYTE, for every state: with FATAL, ERR_FATAL; out of the grid, ERR_RANGE; else OK with DATA the byte at ADDR(C, R),
each defined bit as last written and each undefined bit a fresh draw (R28), and the buffer is as it was. That the draw is
Config.freeByte of the count draws, and that every read adds 1 to it, is the model's choice (log 4). -/
def Obligations.GetbyteMeaning : Prop :=
  ∀ (c r : Nat) (s : State),
    (s.fatal = true → ∃ t, exec (.getbyte c r) s = .next t ∧ onlyAnswered s t .errFatal 0x00#8) ∧
    (s.fatal = false → ¬ (c < s.cfg.digitCols ∧ r < s.cfg.digitRows) →
      ∃ t, exec (.getbyte c r) s = .next t ∧ onlyAnswered s t .errRange 0x00#8) ∧
    (s.fatal = false → c < s.cfg.digitCols → r < s.cfg.digitRows → Buffer.wf s.cfg.bufLen s.buf = true →
      ∃ t d, exec (.getbyte c r) s = .next t ∧ answered s t .ok d ∧ restUnchanged s t ∧ t.buf = s.buf ∧
        t.draws = s.draws + 1 ∧
        ∀ k < 8, d.getLsbD k =
          if (Memory.read s.buf.known (addr s.cfg c r)).getLsbD k
          then (Memory.read s.buf.data (addr s.cfg c r)).getLsbD k
          else (Config.freeByte s.draws).getLsbD k)

/-- R106 SETDOT, for every state of a well-formed configuration: with FATAL, ERR_FATAL; out of range or a table miss, OK and
nothing changed (R100); a hit on bit b, one of 0 to 6, OK with exactly bit b of byte ADDR(X >> 2, ROWDIV6(Y)) set to F and
defined. -/
def Obligations.SetdotMeaning : Prop :=
  ∀ (x y : Nat) (f : Bool) (s : State), s.cfg.wellFormed = true →
    (s.fatal = true → ∃ t, exec (.setdot x y f) s = .next t ∧ onlyAnswered s t .errFatal 0x00#8) ∧
    (s.fatal = false → ¬ (x < s.cfg.pixelCols ∧ y < s.cfg.pixelRows) →
      ∃ t, exec (.setdot x y f) s = .next t ∧ onlyAnswered s t .ok 0x00#8) ∧
    (s.fatal = false → segLookup s.cfg.segTable (pixelCode x y) = none →
      ∃ t, exec (.setdot x y f) s = .next t ∧ onlyAnswered s t .ok 0x00#8) ∧
    (∀ b, s.fatal = false → x < s.cfg.pixelCols → y < s.cfg.pixelRows → Buffer.wf s.cfg.bufLen s.buf = true →
      segLookup s.cfg.segTable (pixelCode x y) = some b →
      b < 7 ∧ ∃ t, exec (.setdot x y f) s = .next t ∧ answered s t .ok 0x00#8 ∧ restUnchanged s t ∧ t.draws = s.draws ∧
        (∀ o, o ≠ addr s.cfg (x >>> 2) (rowDiv6 y) → byteUnchanged s t o) ∧
        ∀ k < 8,
          (Memory.read t.buf.data (addr s.cfg (x >>> 2) (rowDiv6 y))).getLsbD k =
            (if k = b then f else (Memory.read s.buf.data (addr s.cfg (x >>> 2) (rowDiv6 y))).getLsbD k) ∧
          (Memory.read t.buf.known (addr s.cfg (x >>> 2) (rowDiv6 y))).getLsbD k =
            (if k = b then true else (Memory.read s.buf.known (addr s.cfg (x >>> 2) (rowDiv6 y))).getLsbD k))

/-- R150 CLEAR, for every state: with FATAL, ERR_FATAL; else every byte of the buffer is 0x00 with every bit defined. -/
def Obligations.ClearMeaning : Prop :=
  ∀ s : State,
    (s.fatal = true → ∃ t, exec .clear s = .next t ∧ onlyAnswered s t .errFatal 0x00#8) ∧
    (s.fatal = false → Buffer.wf s.cfg.bufLen s.buf = true →
      ∃ t, exec .clear s = .next t ∧ answered s t .ok 0x00#8 ∧ restUnchanged s t ∧ t.draws = s.draws ∧
        (∀ o < s.cfg.bufLen, Memory.read t.buf.data o = 0x00#8 ∧ Memory.read t.buf.known o = 0xFF#8) ∧
        ∀ o, ¬ o < s.cfg.bufLen → byteUnchanged s t o)

/-- R151 FILL V, for every state: with FATAL, ERR_FATAL; else every byte of the buffer is V with every bit defined; FILL 0x00
has the same effect as CLEAR. -/
def Obligations.FillMeaning : Prop :=
  ∀ (v : Byte) (s : State),
    (s.fatal = true → ∃ t, exec (.fill v) s = .next t ∧ onlyAnswered s t .errFatal 0x00#8) ∧
    (s.fatal = false → Buffer.wf s.cfg.bufLen s.buf = true →
      ∃ t, exec (.fill v) s = .next t ∧ answered s t .ok 0x00#8 ∧ restUnchanged s t ∧ t.draws = s.draws ∧
        (∀ o < s.cfg.bufLen, Memory.read t.buf.data o = v ∧ Memory.read t.buf.known o = 0xFF#8) ∧
        ∀ o, ¬ o < s.cfg.bufLen → byteUnchanged s t o) ∧
    exec (.fill 0x00#8) s = exec .clear s

/-- UPDATE's acceptance, for every state: with FATAL, ERR_FATAL and no event; else SER runs from (0, 0, ADDR), CMD is not
ready, ACQUIRE is offered, nothing is answered yet and the buffer is as it was (R127, R22, R32). The rest of the UPDATE is
in UpdateEmitsEightFrames and FailedUpdateCleansUp. -/
def Obligations.UpdateStarts : Prop :=
  ∀ s : State,
    (s.fatal = true → ∃ t, exec .update s = .next t ∧ onlyAnswered s t .errFatal 0x00#8) ∧
    (s.fatal = false → ∃ t, exec .update s = .next t ∧ t.tx = some .acquire ∧ t.port = .busy ∧
      t.ser = { s.ser with phase := .run, plane := 0, slot := 0, half := .addr } ∧ t.cleanup = false ∧
      t.buf = s.buf ∧ t.draws = s.draws ∧ t.cfg = s.cfg ∧ t.fatal = s.fatal ∧ t.rspOut = s.rspOut ∧ t.txOut = s.txOut ∧
      t.cmdIn = s.cmdIn ∧ t.txAns = s.txAns ∧ t.rstIn = s.rstIn)

/-- The frames of the buffer commands, whatever they answer: SETDOT stores at most to byte ADDR(X >> 2, ROWDIV6(Y)), SETBYTE to
byte ADDR(C, R), CLEAR and FILL to the buffer's L bytes, GETBYTE nowhere; none touches FATAL, SER, the TX port, the
configuration or the inputs (R13, R43, R152). -/
def Obligations.BufferCommandFrame : Prop :=
  ∀ s t : State,
    (∀ x y f, exec (.setdot x y f) s = .next t →
      restUnchanged s t ∧ t.draws = s.draws ∧ ∀ o, o ≠ addr s.cfg (x >>> 2) (rowDiv6 y) → byteUnchanged s t o) ∧
    (∀ c r v, exec (.setbyte c r v) s = .next t →
      restUnchanged s t ∧ t.draws = s.draws ∧ ∀ o, o ≠ addr s.cfg c r → byteUnchanged s t o) ∧
    (∀ c r, exec (.getbyte c r) s = .next t → restUnchanged s t ∧ ∀ o, byteUnchanged s t o) ∧
    (exec .clear s = .next t →
      restUnchanged s t ∧ t.draws = s.draws ∧ ∀ o, ¬ o < s.cfg.bufLen → byteUnchanged s t o) ∧
    (∀ v, exec (.fill v) s = .next t →
      restUnchanged s t ∧ t.draws = s.draws ∧ ∀ o, ¬ o < s.cfg.bufLen → byteUnchanged s t o)

/-- R108: SETDOT writes at most one bit, only in byte ADDR(X >> 2, ROWDIV6(Y)), and never bit 7. -/
def Obligations.SetdotWritesAtMostOneBit : Prop :=
  ∀ (x y : Nat) (f : Bool) (s t : State), s.cfg.wellFormed = true → Buffer.wf s.cfg.bufLen s.buf = true →
    exec (.setdot x y f) s = .next t →
    (∀ o, o ≠ addr s.cfg (x >>> 2) (rowDiv6 y) → byteUnchanged s t o) ∧
    ∃ b, b < 7 ∧ ∀ k < 8, k ≠ b →
      (Memory.read t.buf.data (addr s.cfg (x >>> 2) (rowDiv6 y))).getLsbD k =
        (Memory.read s.buf.data (addr s.cfg (x >>> 2) (rowDiv6 y))).getLsbD k ∧
      (Memory.read t.buf.known (addr s.cfg (x >>> 2) (rowDiv6 y))).getLsbD k =
        (Memory.read s.buf.known (addr s.cfg (x >>> 2) (rowDiv6 y))).getLsbD k

/-- R107: setDot(x, y, true) then setDot(x, y, false) leaves the target bit cleared (and defined), and a pixel with no table
entry, or out of range, leaves every byte unchanged. -/
def Obligations.DotRoundTrip : Prop :=
  (∀ (x y b : Nat) (s t u : State), s.Inv → s.fatal = false → x < s.cfg.pixelCols → y < s.cfg.pixelRows →
    segLookup s.cfg.segTable (pixelCode x y) = some b →
    exec (.setdot x y true) s = .next t → exec (.setdot x y false) t = .next u →
    (Memory.read u.buf.data (addr s.cfg (x >>> 2) (rowDiv6 y))).getLsbD b = false ∧
    (Memory.read u.buf.known (addr s.cfg (x >>> 2) (rowDiv6 y))).getLsbD b = true) ∧
  (∀ (x y : Nat) (f : Bool) (s t : State),
    segLookup s.cfg.segTable (pixelCode x y) = none ∨ ¬ (x < s.cfg.pixelCols ∧ y < s.cfg.pixelRows) →
    exec (.setdot x y f) s = .next t → t.buf = s.buf)

/-- A GETBYTE right after a SETBYTE at the same digit returns the value written (R47, with R83 and R84). -/
def Obligations.SetbyteThenGetbyte : Prop :=
  ∀ (c r : Nat) (v : Byte) (s t : State), Buffer.wf s.cfg.bufLen s.buf = true → s.fatal = false →
    c < s.cfg.digitCols → r < s.cfg.digitRows → exec (.setbyte c r v) s = .next t →
    ∃ u, exec (.getbyte c r) t = .next u ∧ answered t u .ok v

/-- After CLEAR every digit reads 0x00, and after FILL V every digit reads V (R84, R150, R151). -/
def Obligations.ReadAfterClearAndFill : Prop :=
  ∀ (c r : Nat) (v : Byte) (s t : State), Buffer.wf s.cfg.bufLen s.buf = true → s.fatal = false →
    c < s.cfg.digitCols → r < s.cfg.digitRows →
    (exec .clear s = .next t → ∃ u, exec (.getbyte c r) t = .next u ∧ answered t u .ok 0x00#8) ∧
    (exec (.fill v) s = .next t → ∃ u, exec (.getbyte c r) t = .next u ∧ answered t u .ok v)

/-- Every command but UPDATE completes in its own step, waiting on nothing outside the block: it has answered and CMD is
ready again (R186, R187). -/
def Obligations.BufferCommandsCompleteInOneStep : Prop :=
  ∀ (s : State) (w : Word) (rest : List Word) (i : Instr), s.Inv → acceptsNext s w rest → decode w = .instr i →
    i ≠ .update → ∃ t status data, step s = .next t ∧ answered s t status data ∧ t.tx = none ∧ t.cmdIn = rest

/-! ## The output of UPDATE -/

/-- R130: frame i + 1's ACQUIRE is offered only after frame i's RELEASE has been answered, access given back. -/
def Obligations.NextFrameOpensAfterRelease : Prop :=
  ∀ s t : State, s.Inv → step s = .next t → s.tx ≠ some .acquire → t.tx = some .acquire →
    (s.tx = none ∧ t.ser.plane = 0) ∨
    (s.tx = some .release ∧ t.txOut = s.txOut ++ [⟨.release, .accept⟩] ∧ t.ser.plane = s.ser.plane + 1 ∧
      t.ser.owned = false ∧ t.ser.cs = .deasserted)

/-- R129: whenever a step of a safe state leaves an UPDATE offering an address byte, the byte is i + 1, in [1, 8]. -/
def Obligations.AddressBytesAreDigitRegisters : Prop :=
  ∀ (s t : State) (v : Byte), s.Inv → step s = .next t → t.tx = some (.byte v) → t.cleanup = false →
    t.ser.half = .addr → v.toNat = t.ser.plane + 1 ∧ 1 ≤ v.toNat ∧ v.toNat ≤ 8

/-- R128: an UPDATE all of whose events the Transport accepts, each after any stall, emits exactly 8 frames in plane order,
frame i holding N two-byte commands, slot j being (i + 1, BUF[REORDER(j)·8 + i]), in total 8·(2N + 4) events; then it answers
OK, with the buffer unchanged and the block ready. Undefined bits are sent as free draws, whatever they are; that the draws are
numbered by the count draws, and made when a byte is offered, is the model's choice (log 4, log 13). -/
def Obligations.UpdateEmitsEightFrames : Prop :=
  ∀ (s : State) (w : Word) (rest : List Word) (answers : List (Nat × TxAnswer)) (more : List (Option TxAnswer)),
    acceptsNext s w rest → decode w = .instr .update → s.fatal = false → true ∉ s.rstIn →
    answers.map Prod.snd = List.replicate (updateLength s) .accept → s.txAns = stalledAnswers answers ++ more →
    (updateEvents s).length = updateLength s ∧
    ∃ t, Sys2Proof.core.run (1 + (stalledAnswers answers).length) s = .next t ∧
      t.txOut = s.txOut ++ (updateEvents s).map (fun ev => ⟨ev, .accept⟩) ∧
      answered s t .ok 0x00#8 ∧ quiet t ∧ t.buf = s.buf ∧ t.fatal = false ∧ t.cfg = s.cfg ∧
      t.cmdIn = rest ∧ t.txAns = more ∧ t.draws = s.draws + 8 * s.cfg.numModules

/-- R126: an UPDATE whose event number k the Transport fails, having accepted those before it, sends no further BYTE: it offers
the cleanup events of that event, whatever their answers, sets FATAL, answers ERR_TRANSPORT and leaves the buffer unchanged
and SER idle, chip-select deasserted, access not owned. Every answer may come after a stall. What the bytes sent before were
rests, for undefined bits, on the model's numbered draws (log 4, log 13). -/
def Obligations.FailedUpdateCleansUp : Prop :=
  ∀ (s : State) (w : Word) (rest : List Word) (k : Nat) (ev : TxEvent) (cleanupAnswers : List TxAnswer)
    (answers : List (Nat × TxAnswer)) (more : List (Option TxAnswer)),
    acceptsNext s w rest → decode w = .instr .update → s.fatal = false → true ∉ s.rstIn →
    (updateEvents s)[k]? = some ev → cleanupAnswers.length = (cleanupEvents ev).length →
    answers.map Prod.snd = List.replicate k .accept ++ [.fail] ++ cleanupAnswers →
    s.txAns = stalledAnswers answers ++ more →
    ∃ t, Sys2Proof.core.run (1 + (stalledAnswers answers).length) s = .next t ∧
      t.txOut = s.txOut ++ ((updateEvents s).take k).map (fun e => ⟨e, .accept⟩) ++ [⟨ev, .fail⟩] ++
        List.zipWith TxRecord.mk (cleanupEvents ev) cleanupAnswers ∧
      answered s t .errTransport 0x00#8 ∧ quiet t ∧ t.fatal = true ∧ t.buf = s.buf ∧ t.cfg = s.cfg ∧
      t.cmdIn = rest ∧ t.txAns = more
end

