-- ==== Sys2Proof/Laws/Memory.lean ====
section
/-! SUPPORT. The laws of the canonical memory: read after write, and the canonical form kept by every write. -/

namespace Sys2Proof.Machine

@[simp] theorem Memory.read_nil (a : Nat) : Memory.read [] a = 0#8 := rfl

theorem Memory.wf_cons {b : Nat} {w : Byte} {m : Memory} :
    Memory.wf ((b, w) :: m) = true ↔ w ≠ 0#8 ∧ (∀ c ∈ m, b < c.1) ∧ Memory.wf m = true := by
  simp [Memory.wf, and_assoc]

theorem Memory.read_eq_zero {m : Memory} {a : Nat} (h : ∀ c ∈ m, c.1 ≠ a) : Memory.read m a = 0#8 := by
  induction m with
  | nil => rfl
  | cons c m ih =>
    obtain ⟨b, w⟩ := c
    have hb : b ≠ a := h (b, w) (by simp)
    simp only [Memory.read, hb, if_false]
    exact ih fun c hc => h c (by simp [hc])

/-- A write leaves every other byte alone, whatever the memory. -/
theorem Memory.read_write_other {m : Memory} {a b : Nat} {v : Byte} (h : b ≠ a) :
    Memory.read (Memory.write m a v) b = Memory.read m b := by
  induction m with
  | nil =>
    by_cases hv : v = 0#8
    · simp [Memory.write, hv]
    · simp [Memory.write, Memory.read, hv, Ne.symm h]
  | cons c m ih =>
    obtain ⟨k, w⟩ := c
    unfold Memory.write
    split
    · split
      · rfl
      · simp [Memory.read, Ne.symm h]
    · split
      · subst_vars
        split
        · simp [Memory.read, Ne.symm h]
        · simp [Memory.read, Ne.symm h]
      · simp only [Memory.read, ih]

/-- A byte written is the byte read. -/
theorem Memory.read_write_same {m : Memory} {a : Nat} {v : Byte} (hm : Memory.wf m = true) :
    Memory.read (Memory.write m a v) a = v := by
  induction m with
  | nil =>
    by_cases hv : v = 0#8
    · simp [Memory.write, hv]
    · simp [Memory.write, Memory.read, hv]
  | cons c m ih =>
    obtain ⟨k, w⟩ := c
    obtain ⟨-, hk, hm'⟩ := Memory.wf_cons.mp hm
    unfold Memory.write
    split
    · rename_i hlt
      split
      · subst_vars
        refine Memory.read_eq_zero fun c hc => ?_
        rcases List.mem_cons.mp hc with rfl | hc
        · exact Nat.ne_of_gt hlt
        · exact Nat.ne_of_gt (Nat.lt_trans hlt (hk c hc))
      · simp [Memory.read]
    · split
      · subst_vars
        split
        · subst_vars
          exact Memory.read_eq_zero fun c hc => Nat.ne_of_gt (hk c hc)
        · simp [Memory.read]
      · rename_i hne
        simp only [Memory.read, hne, if_false]
        exact ih hm'

theorem Memory.read_write {m : Memory} {a b : Nat} {v : Byte} (hm : Memory.wf m = true) :
    Memory.read (Memory.write m a v) b = if b = a then v else Memory.read m b := by
  split
  · subst_vars; exact Memory.read_write_same hm
  · exact Memory.read_write_other ‹_›

/-- What a write can list: what was listed, or the byte written. -/
theorem Memory.mem_write {m : Memory} {a : Nat} {v : Byte} {c : Host.Cell} (h : c ∈ Memory.write m a v) :
    c ∈ m ∨ c = (a, v) := by
  induction m with
  | nil =>
    unfold Memory.write at h
    split at h <;> simp_all
  | cons d m ih =>
    obtain ⟨k, w⟩ := d
    unfold Memory.write at h
    split at h
    · split at h
      · exact .inl h
      · rcases List.mem_cons.mp h with h | h
        · exact .inr h
        · exact .inl h
    · split at h
      · subst_vars
        split at h
        · exact .inl (List.mem_cons_of_mem _ h)
        · rcases List.mem_cons.mp h with h | h
          · exact .inr h
          · exact .inl (List.mem_cons_of_mem _ h)
      · rcases List.mem_cons.mp h with rfl | h
        · simp
        · rcases ih h with h | h <;> simp [h]

/-- Every write keeps the canonical form. -/
theorem Memory.wf_write {m : Memory} {a : Nat} {v : Byte} (hm : Memory.wf m = true) :
    Memory.wf (Memory.write m a v) = true := by
  induction m with
  | nil =>
    unfold Memory.write
    split
    · rfl
    · simp [Memory.wf, *]
  | cons c m ih =>
    obtain ⟨k, w⟩ := c
    have hc := Memory.wf_cons.mp hm
    unfold Memory.write
    split
    · rename_i hlt
      split
      · exact hm
      · rename_i hv
        refine Memory.wf_cons.mpr ⟨hv, fun c hcm => ?_, hm⟩
        rcases List.mem_cons.mp hcm with rfl | hcm
        · exact hlt
        · exact Nat.lt_trans hlt (hc.2.1 c hcm)
    · split
      · subst_vars
        split
        · exact hc.2.2
        · exact Memory.wf_cons.mpr ⟨‹_›, hc.2.1, hc.2.2⟩
      · rename_i hlt hne
        refine Memory.wf_cons.mpr ⟨hc.1, fun c hcm => ?_, ih hc.2.2⟩
        rcases Memory.mem_write hcm with hcm | rfl
        · exact hc.2.1 c hcm
        · exact Nat.lt_of_le_of_ne (Nat.le_of_not_lt hlt) hne

theorem Memory.read_of_mem {m : Memory} {a : Nat} {v : Byte} (hm : Memory.wf m = true) (h : (a, v) ∈ m) :
    Memory.read m a = v := by
  induction m with
  | nil => cases h
  | cons c m ih =>
    obtain ⟨k, w⟩ := c
    obtain ⟨-, hk, hm'⟩ := Memory.wf_cons.mp hm
    rcases List.mem_cons.mp h with h | h
    · cases h; simp [Memory.read]
    · simp only [Memory.read, Nat.ne_of_lt (hk _ h), if_false]
      exact ih hm' h

/-- In canonical form no listed byte is 0x00. -/
theorem Memory.ne_zero_of_mem {m : Memory} {c : Host.Cell} (hm : Memory.wf m = true) (h : c ∈ m) : c.2 ≠ 0#8 := by
  induction m with
  | nil => cases h
  | cons d m ih =>
    obtain ⟨k, w⟩ := d
    obtain ⟨hw, -, hm'⟩ := Memory.wf_cons.mp hm
    rcases List.mem_cons.mp h with rfl | h
    · exact hw
    · exact ih hm' h

theorem Memory.mem_of_read_ne_zero {m : Memory} {a : Nat} (h : Memory.read m a ≠ 0#8) : (a, Memory.read m a) ∈ m := by
  induction m with
  | nil => simp at h
  | cons c m ih =>
    obtain ⟨k, w⟩ := c
    by_cases hk : k = a
    · simp [Memory.read, hk]
    · simp only [Memory.read, hk, if_false] at h ⊢
      exact List.mem_cons_of_mem _ (ih h)

/-- Equal memories are equal data. -/
theorem Memory.ext_of_wf {m m' : Memory} (hm : Memory.wf m = true) (hm' : Memory.wf m' = true)
    (h : ∀ a, Memory.read m a = Memory.read m' a) : m = m' := by
  induction m generalizing m' with
  | nil =>
    cases m' with
    | nil => rfl
    | cons c m' =>
      obtain ⟨k, w⟩ := c
      have := h k
      simp only [Memory.read, if_true] at this
      exact absurd this.symm (Memory.wf_cons.mp hm').1
  | cons c m ih =>
    obtain ⟨k, w⟩ := c
    obtain ⟨hw, hk, hmt⟩ := Memory.wf_cons.mp hm
    cases m' with
    | nil =>
      have := h k
      simp only [Memory.read, if_true] at this
      exact absurd this hw
    | cons c' m' =>
      obtain ⟨k', w'⟩ := c'
      obtain ⟨hw', hk', hmt'⟩ := Memory.wf_cons.mp hm'
      have hkk : k = k' := by
        rcases Nat.lt_trichotomy k k' with hlt | heq | hgt
        · have := h k
          rw [Memory.read_eq_zero (m := (k', w') :: m') (a := k) fun c hc => by
            rcases List.mem_cons.mp hc with rfl | hc
            · exact Nat.ne_of_gt hlt
            · exact Nat.ne_of_gt (Nat.lt_trans hlt (hk' c hc))] at this
          simp only [Memory.read, if_true] at this
          exact absurd this hw
        · exact heq
        · have := h k'
          rw [Memory.read_eq_zero (m := (k, w) :: m) (a := k') fun c hc => by
            rcases List.mem_cons.mp hc with rfl | hc
            · exact Nat.ne_of_gt hgt
            · exact Nat.ne_of_gt (Nat.lt_trans hgt (hk c hc))] at this
          simp only [Memory.read, if_true] at this
          exact absurd this.symm hw'
      subst hkk
      have hww : w = w' := by simpa [Memory.read] using h k
      subst hww
      congr 1
      refine ih hmt hmt' fun a => ?_
      by_cases ha : k = a
      · subst ha
        rw [Memory.read_eq_zero fun c hc => Nat.ne_of_gt (hk c hc),
          Memory.read_eq_zero fun c hc => Nat.ne_of_gt (hk' c hc)]
      · simpa [Memory.read, ha] using h a

end Sys2Proof.Machine
end

