-- ==== Sys2Proof/Laws/Buffer.lean ====
section
/-! SUPPORT. The laws of the frame buffer: what each write makes of every byte and mark, what a read returns bit by bit, and
the canonical form kept (spec/10_state.md R27, R28; spec/00_scope.md R12). -/

namespace Sys2Proof.Machine

/-- The canonical form, part by part. -/
theorem Buffer.wf_iff {len : Nat} {b : Buffer} : Buffer.wf len b = true ↔
    Memory.wf b.data = true ∧ Memory.wf b.known = true ∧
    (∀ c ∈ b.data, c.1 < len ∧ c.2 &&& ~~~ Memory.read b.known c.1 = 0#8) ∧ (∀ c ∈ b.known, c.1 < len) := by
  simp [Buffer.wf, and_assoc]

/-- An undefined bit is stored as 0. -/
theorem Buffer.data_masked {len : Nat} {b : Buffer} (h : Buffer.wf len b = true) (o : Nat) :
    Memory.read b.data o &&& ~~~ Memory.read b.known o = 0#8 := by
  by_cases hz : Memory.read b.data o = 0#8
  · simp [hz]
  · exact ((Buffer.wf_iff.mp h).2.2.1 _ (Memory.mem_of_read_ne_zero hz)).2

theorem Buffer.empty_wf (len : Nat) : Buffer.wf len ⟨[], []⟩ = true := by simp [Buffer.wf, Memory.wf]

/-! ## Bits of a byte -/

@[simp] theorem getLsbD_bitMask (k i : Nat) : (bitMask k).getLsbD i = (decide (i < 8) && decide (i = k)) := by
  by_cases h : i = k
  · subst h; by_cases h8 : i < 8 <;> simp [bitMask, h8]
  · by_cases hik : i < k
    · simp [bitMask, h, hik]
    · have : i - k ≠ 0 := by omega
      simp [bitMask, h, this]

@[simp] theorem getElem_bitMask (k i : Nat) (h : i < 8) : (bitMask k)[i] = decide (i = k) := by
  rw [← BitVec.getLsbD_eq_getElem h, getLsbD_bitMask]
  simp [h]

/-- R28, bit by bit: a defined bit as last written, an undefined one as drawn. -/
theorem Buffer.getLsbD_value {b : Buffer} {o : Nat} {free : Byte} {i : Nat} (hi : i < 8)
    (hm : Memory.read b.data o &&& ~~~ Memory.read b.known o = 0#8) :
    (b.value o free).getLsbD i =
      if (Memory.read b.known o).getLsbD i then (Memory.read b.data o).getLsbD i else free.getLsbD i := by
  unfold Buffer.value
  split
  · rename_i hk
    have : (0xFF#8).getLsbD i = true := by interval_cases i <;> rfl
    simp [hk, this]
  · have hbit := congrArg (fun v : Byte => v.getLsbD i) hm
    cases hk : (Memory.read b.known o).getLsbD i <;> simp_all

/-- A wholly defined byte reads as its data, whatever was drawn. -/
@[simp] theorem Buffer.value_of_known {b : Buffer} {o : Nat} {free : Byte}
    (h : Memory.read b.known o = 0xFF#8) : b.value o free = Memory.read b.data o := by
  simp [Buffer.value, h]

/-! ## One byte written -/

theorem Buffer.read_data_writeByte {b : Buffer} {o a : Nat} {v : Byte} (h : a ≠ o) :
    Memory.read (b.writeByte o v).data a = Memory.read b.data a := Memory.read_write_other h

theorem Buffer.read_known_writeByte {b : Buffer} {o a : Nat} {v : Byte} (h : a ≠ o) :
    Memory.read (b.writeByte o v).known a = Memory.read b.known a := Memory.read_write_other h

theorem Buffer.read_writeByte_same {b : Buffer} {o : Nat} {v : Byte} {len : Nat} (hb : Buffer.wf len b = true) :
    Memory.read (b.writeByte o v).data o = v ∧ Memory.read (b.writeByte o v).known o = 0xFF#8 := by
  have h := Buffer.wf_iff.mp hb
  exact ⟨Memory.read_write_same h.1, Memory.read_write_same h.2.1⟩

/-- The form a write of one byte's data and mark keeps, when it stores 0 in the bits it leaves undefined. -/
theorem Buffer.write_wf {len : Nat} {b : Buffer} {o : Nat} {d k : Byte} (hb : Buffer.wf len b = true) (ho : o < len)
    (hdk : d &&& ~~~ k = 0#8) : Buffer.wf len ⟨Memory.write b.data o d, Memory.write b.known o k⟩ = true := by
  obtain ⟨hd, hk, hdata, hknown⟩ := Buffer.wf_iff.mp hb
  refine Buffer.wf_iff.mpr ⟨Memory.wf_write hd, Memory.wf_write hk, fun c hc => ?_, fun c hc => ?_⟩
  · have hread := Memory.read_of_mem (Memory.wf_write hd) (show (c.1, c.2) ∈ _ from hc)
    by_cases hco : c.1 = o
    · rw [hco, Memory.read_write_same hd] at hread
      exact ⟨hco ▸ ho, by rw [hco, Memory.read_write_same hk, ← hread]; exact hdk⟩
    · rcases Memory.mem_write hc with hold | rfl
      · exact ⟨(hdata c hold).1, by rw [Memory.read_write_other hco]; exact (hdata c hold).2⟩
      · exact absurd rfl hco
  · rcases Memory.mem_write hc with hold | rfl
    · exact hknown c hold
    · exact ho

theorem Buffer.writeByte_wf {len : Nat} {b : Buffer} {o : Nat} {v : Byte} (hb : Buffer.wf len b = true) (ho : o < len) :
    Buffer.wf len (b.writeByte o v) = true := by
  refine Buffer.write_wf hb ho ?_
  have : ~~~(0xFF#8) = 0#8 := rfl
  simp [this]

/-! ## One bit written -/

theorem Buffer.read_data_writeBit {b : Buffer} {o a k : Nat} {v : Bool} (h : a ≠ o) :
    Memory.read (b.writeBit o k v).data a = Memory.read b.data a := Memory.read_write_other h

theorem Buffer.read_known_writeBit {b : Buffer} {o a k : Nat} {v : Bool} (h : a ≠ o) :
    Memory.read (b.writeBit o k v).known a = Memory.read b.known a := Memory.read_write_other h

/-- BufWriteBit: bit k takes the value and is defined; the other bits and their marks are unchanged (R12). -/
theorem Buffer.getLsbD_writeBit {b : Buffer} {o k i : Nat} {v : Bool} {len : Nat} (hb : Buffer.wf len b = true)
    (hi : i < 8) :
    (Memory.read (b.writeBit o k v).data o).getLsbD i = (if i = k then v else (Memory.read b.data o).getLsbD i) ∧
    (Memory.read (b.writeBit o k v).known o).getLsbD i = (decide (i = k) || (Memory.read b.known o).getLsbD i) := by
  have h := Buffer.wf_iff.mp hb
  unfold Buffer.writeBit
  simp only [Memory.read_write_same h.1, Memory.read_write_same h.2.1]
  constructor
  · by_cases hik : i = k <;> cases v <;> simp_all
  · by_cases hik : i = k <;> simp_all

theorem Buffer.writeBit_wf {len : Nat} {b : Buffer} {o k : Nat} {v : Bool} (hb : Buffer.wf len b = true) (ho : o < len) :
    Buffer.wf len (b.writeBit o k v) = true := by
  refine Buffer.write_wf hb ho ?_
  have hm := Buffer.data_masked hb o
  apply BitVec.eq_of_getLsbD_eq
  intro i hi
  have hbit : (Memory.read b.data o)[i] = true → (Memory.read b.known o)[i] = true := by
    simpa [hi] using congrArg (fun w : Byte => w.getLsbD i) hm
  clear hm
  by_cases hik : i = k <;> cases v <;> simp_all

/-! ## Every byte written -/

theorem Buffer.writeAll_zero (b : Buffer) (v : Byte) : b.writeAll 0 v = b := rfl

theorem Buffer.writeAll_succ (b : Buffer) (n : Nat) (v : Byte) :
    b.writeAll (n + 1) v = (b.writeAll n v).writeByte n v := by
  simp [Buffer.writeAll, List.range_succ]

theorem Buffer.writeAll_wf_le {len n : Nat} {b : Buffer} {v : Byte} (hb : Buffer.wf len b = true) (hn : n ≤ len) :
    Buffer.wf len (b.writeAll n v) = true := by
  induction n with
  | zero => exact hb
  | succ n ih =>
    rw [Buffer.writeAll_succ]
    exact Buffer.writeByte_wf (ih (by omega)) (by omega)

theorem Buffer.writeAll_wf {len : Nat} {b : Buffer} {v : Byte} (hb : Buffer.wf len b = true) :
    Buffer.wf len (b.writeAll len v) = true := Buffer.writeAll_wf_le hb (Nat.le_refl len)

/-- CLEAR's and FILL's loop: every offset below the length holds v, defined; the others are unchanged. -/
theorem Buffer.read_writeAll {len n : Nat} {b : Buffer} {v : Byte} (hb : Buffer.wf len b = true) (hn : n ≤ len) (a : Nat) :
    Memory.read (b.writeAll n v).data a = (if a < n then v else Memory.read b.data a) ∧
    Memory.read (b.writeAll n v).known a = (if a < n then 0xFF#8 else Memory.read b.known a) := by
  induction n with
  | zero => simp [Buffer.writeAll_zero]
  | succ n ih =>
    have hwf := Buffer.writeAll_wf_le (v := v) hb (show n ≤ len by omega)
    rw [Buffer.writeAll_succ]
    by_cases han : a = n
    · subst han
      simpa using Buffer.read_writeByte_same hwf
    · rw [Buffer.read_data_writeByte han, Buffer.read_known_writeByte han]
      have := ih (by omega)
      have hiff : (a < n + 1) ↔ a < n := by omega
      simpa only [hiff] using this

end Sys2Proof.Machine
end

