-- ==== Sys2Proof/Laws/Operands.lean ====
section
/-! SUPPORT. The combinational parts as arithmetic: shifts and masks as quotients and remainders, and the bounds a
well-formed configuration gives (spec/00_scope.md R8, R9). -/

namespace Sys2Proof.Machine

/-! ## Shifts and masks -/

theorem and_three (n : Nat) : n &&& 3 = n % 4 := Nat.and_two_pow_sub_one_eq_mod n 2

theorem and_one (n : Nat) : n &&& 1 = n % 2 := Nat.and_two_pow_sub_one_eq_mod n 1

theorem digitPlace_eq (c r : Nat) : digitPlace c r = c % 4 + 4 * (r % 2) := by
  simp only [digitPlace, and_three, and_one]

theorem digitModule_eq (cfg : Config) (c r : Nat) : digitModule cfg c r = r / 2 * cfg.mc + c / 4 := by
  simp only [digitModule, Nat.shiftRight_eq_div_pow]

theorem addr_eq_arith (cfg : Config) (c r : Nat) :
    addr cfg c r = r / 2 * (cfg.mc * 8) + c / 4 * 8 + c % 4 + r % 2 * 4 := by
  simp only [addr, Nat.shiftRight_eq_div_pow, and_three, and_one]

theorem rowDiv6_eq_div (y : Nat) : rowDiv6 y = y * 342 / 2048 := by
  simp only [rowDiv6, Nat.shiftRight_eq_div_pow]

theorem localX_eq_mod (x : Nat) : localX x = x % 4 := and_three x

theorem compositeCode_eq_add {lx ly : Nat} (h : lx < 4) : compositeCode lx ly = 4 * ly + lx := by
  have hshift : ly <<< 2 = 2 ^ 2 * ly := by rw [Nat.shiftLeft_eq, Nat.mul_comm]
  rw [compositeCode, Nat.or_comm, hshift]
  exact (Nat.two_pow_add_eq_or_of_lt h ly).symm

/-! ## The configuration check -/

theorem dimensionsOk_iff {cfg : Config} :
    dimensionsOk cfg = true ↔ 1 ≤ cfg.mc ∧ cfg.mc ≤ 256 ∧ 1 ≤ cfg.mr ∧ cfg.mr ≤ 42 := by
  simp [dimensionsOk, and_assoc]

theorem segTableOk_iff {table : List SegEntry} :
    segTableOk table = true ↔ table.length = 7 ∧ ∀ e ∈ table, e.key < 32 ∧ e.bit < 7 := by
  simp [segTableOk]

theorem reorderOk_iff {cfg : Config} :
    reorderOk cfg = true ↔
      policyOk cfg = true ∧ (∀ j < cfg.numModules, (displayIndex cfg j).isSome) ∧ (displayOrder cfg).Nodup := by
  simp only [reorderOk, Bool.and_eq_true, decide_eq_true_eq, and_assoc]
  simp [displayOrder]

theorem wellFormed_iff {cfg : Config} :
    cfg.wellFormed = true ↔ dimensionsOk cfg = true ∧ segTableOk cfg.segTable = true ∧ reorderOk cfg = true := by
  simp [Config.wellFormed, and_assoc]

/-- `step` goes on exactly where the configuration is well formed. -/
theorem configProblem_eq_none {cfg : Config} : configProblem cfg = none ↔ cfg.wellFormed = true := by
  unfold configProblem Config.wellFormed
  cases dimensionsOk cfg <;> cases segTableOk cfg.segTable <;> cases reorderOk cfg <;> simp

/-- REORDER names a module of the chain, where it names one. -/
theorem displayIndex_lt {cfg : Config} {j d : Nat} (h : displayIndex cfg j = some d) : d < cfg.numModules := by
  unfold displayIndex at h
  simp only at h
  split at h
  · rename_i hd
    cases h
    omega
  · cases h

/-- In a well-formed configuration every slot names a module. -/
theorem exists_displayIndex {cfg : Config} (hc : cfg.wellFormed = true) {j : Nat} (hj : j < cfg.numModules) :
    ∃ d, displayIndex cfg j = some d ∧ d < cfg.numModules := by
  have h := (reorderOk_iff.mp (wellFormed_iff.mp hc).2.2).2.1 j hj
  obtain ⟨d, hd⟩ := Option.isSome_iff_exists.mp h
  exact ⟨d, hd, displayIndex_lt hd⟩

theorem numModules_pos {cfg : Config} (hc : cfg.wellFormed = true) : 0 < cfg.numModules := by
  obtain ⟨h1, -, h2, -⟩ := dimensionsOk_iff.mp (wellFormed_iff.mp hc).1
  exact Nat.mul_pos h1 h2

/-- A byte of module d's bank lies in the buffer. -/
theorem bank_lt_bufLen {cfg : Config} {d i : Nat} (hd : d < cfg.numModules) (hi : i < 8) : d * 8 + i < cfg.bufLen := by
  unfold Config.bufLen
  omega

/-! ## Ranges -/

theorem inRangeD_iff {cfg : Config} {c r : Nat} :
    inRangeD cfg c r = true ↔ c < cfg.mc * 4 ∧ r < cfg.mr * 2 := by
  simp only [inRangeD, Bool.and_eq_true, decide_eq_true_eq]
  exact Iff.rfl

theorem inRangeP_iff {cfg : Config} {x y : Nat} :
    inRangeP cfg x y = true ↔ x < cfg.mc * 16 ∧ y < cfg.mr * 12 := by
  simp only [inRangeP, Bool.and_eq_true, decide_eq_true_eq]
  exact Iff.rfl

theorem digitModule_lt {cfg : Config} {c r : Nat} (h : inRangeD cfg c r = true) :
    digitModule cfg c r < cfg.numModules := by
  obtain ⟨hc, hr⟩ := inRangeD_iff.mp h
  have h1 : c / 4 < cfg.mc := by omega
  have h2 : r / 2 + 1 ≤ cfg.mr := by omega
  have h3 : (r / 2 + 1) * cfg.mc ≤ cfg.mr * cfg.mc := Nat.mul_le_mul_right _ h2
  rw [digitModule_eq, Config.numModules, Nat.mul_comm cfg.mc]
  rw [Nat.add_mul] at h3
  omega

theorem addr_eq_bank (cfg : Config) (c r : Nat) : addr cfg c r = digitModule cfg c r * 8 + digitPlace c r := by
  rw [addr_eq_arith, digitModule_eq, digitPlace_eq, ← Nat.mul_assoc]
  omega

theorem digitPlace_lt (c r : Nat) : digitPlace c r < 8 := by
  rw [digitPlace_eq]
  omega

/-- No digit of the grid lies outside the buffer. -/
theorem addr_lt_bufLen {cfg : Config} {c r : Nat} (h : inRangeD cfg c r = true) : addr cfg c r < cfg.bufLen := by
  rw [addr_eq_bank]
  exact bank_lt_bufLen (digitModule_lt h) (digitPlace_lt c r)

/-- Under the limit MR ≤ 42 the digit under an in-range pixel lies in the grid. -/
theorem pixel_inRangeD {cfg : Config} {x y : Nat} (hmr : cfg.mr ≤ 42) (h : inRangeP cfg x y = true) :
    inRangeD cfg (x >>> 2) (rowDiv6 y) = true := by
  obtain ⟨hx, hy⟩ := inRangeP_iff.mp h
  rw [inRangeD_iff, rowDiv6_eq_div, Nat.shiftRight_eq_div_pow]
  omega

theorem pixelOffset_lt_bufLen {cfg : Config} {x y : Nat} (hmr : cfg.mr ≤ 42) (h : inRangeP cfg x y = true) :
    pixelOffset cfg x y < cfg.bufLen := addr_lt_bufLen (pixel_inRangeD hmr h)

/-! ## The segment table -/

theorem segLookup_mem {table : List SegEntry} {z k : Nat} (h : segLookup table z = some k) :
    ∃ e ∈ table, e.key = z ∧ e.bit = k := by
  induction table with
  | nil => cases h
  | cons e table ih =>
    unfold segLookup at h
    split at h
    · exact ⟨e, by simp, ‹_›, Option.some.inj h⟩
    · obtain ⟨e', he', hz, hk⟩ := ih h
      exact ⟨e', by simp [he'], hz, hk⟩

/-- A hit never names bit 7. -/
theorem segLookup_lt {table : List SegEntry} {z k : Nat} (ht : segTableOk table = true)
    (h : segLookup table z = some k) : k < 7 := by
  obtain ⟨e, he, -, rfl⟩ := segLookup_mem h
  exact ((segTableOk_iff.mp ht).2 e he).2

end Sys2Proof.Machine
end

