-- ==== Sys2Proof/Laws/State.lean ====
section
/-! SUPPORT. One lemma per field per named update of the state: which fields an operation writes, and with what. -/

namespace Sys2Proof.Machine

variable (s : State)

/-! ## State.respond: respond (R12) -/

@[simp] theorem State.respond_cfg (st : Status) (d : Byte) : (s.respond st d).cfg = s.cfg := rfl
@[simp] theorem State.respond_buf (st : Status) (d : Byte) : (s.respond st d).buf = s.buf := rfl
@[simp] theorem State.respond_fatal (st : Status) (d : Byte) : (s.respond st d).fatal = s.fatal := rfl
@[simp] theorem State.respond_ser (st : Status) (d : Byte) : (s.respond st d).ser = s.ser := rfl
@[simp] theorem State.respond_port (st : Status) (d : Byte) : (s.respond st d).port = .ready := rfl
@[simp] theorem State.respond_tx (st : Status) (d : Byte) : (s.respond st d).tx = s.tx := rfl
@[simp] theorem State.respond_cleanup (st : Status) (d : Byte) : (s.respond st d).cleanup = s.cleanup := rfl
@[simp] theorem State.respond_cmdIn (st : Status) (d : Byte) : (s.respond st d).cmdIn = s.cmdIn := rfl
@[simp] theorem State.respond_txAns (st : Status) (d : Byte) : (s.respond st d).txAns = s.txAns := rfl
@[simp] theorem State.respond_rstIn (st : Status) (d : Byte) : (s.respond st d).rstIn = s.rstIn := rfl
@[simp] theorem State.respond_rspOut (st : Status) (d : Byte) : (s.respond st d).rspOut = s.rspOut ++ [rspWord st d] := rfl
@[simp] theorem State.respond_txOut (st : Status) (d : Byte) : (s.respond st d).txOut = s.txOut := rfl
@[simp] theorem State.respond_draws (st : Status) (d : Byte) : (s.respond st d).draws = s.draws := rfl

/-! ## State.setFatal: FATAL <- 1 (R126) -/

@[simp] theorem State.setFatal_cfg : (s.setFatal).cfg = s.cfg := rfl
@[simp] theorem State.setFatal_buf : (s.setFatal).buf = s.buf := rfl
@[simp] theorem State.setFatal_fatal : (s.setFatal).fatal = true := rfl
@[simp] theorem State.setFatal_ser : (s.setFatal).ser = s.ser := rfl
@[simp] theorem State.setFatal_port : (s.setFatal).port = s.port := rfl
@[simp] theorem State.setFatal_tx : (s.setFatal).tx = s.tx := rfl
@[simp] theorem State.setFatal_cleanup : (s.setFatal).cleanup = s.cleanup := rfl
@[simp] theorem State.setFatal_cmdIn : (s.setFatal).cmdIn = s.cmdIn := rfl
@[simp] theorem State.setFatal_txAns : (s.setFatal).txAns = s.txAns := rfl
@[simp] theorem State.setFatal_rstIn : (s.setFatal).rstIn = s.rstIn := rfl
@[simp] theorem State.setFatal_rspOut : (s.setFatal).rspOut = s.rspOut := rfl
@[simp] theorem State.setFatal_txOut : (s.setFatal).txOut = s.txOut := rfl
@[simp] theorem State.setFatal_draws : (s.setFatal).draws = s.draws := rfl

/-! ## State.offer: emit, the offering (R12) -/

@[simp] theorem State.offer_cfg (ev : TxEvent) : (s.offer ev).cfg = s.cfg := rfl
@[simp] theorem State.offer_buf (ev : TxEvent) : (s.offer ev).buf = s.buf := rfl
@[simp] theorem State.offer_fatal (ev : TxEvent) : (s.offer ev).fatal = s.fatal := rfl
@[simp] theorem State.offer_ser (ev : TxEvent) : (s.offer ev).ser = s.ser := rfl
@[simp] theorem State.offer_port (ev : TxEvent) : (s.offer ev).port = s.port := rfl
@[simp] theorem State.offer_tx (ev : TxEvent) : (s.offer ev).tx = some ev := rfl
@[simp] theorem State.offer_cleanup (ev : TxEvent) : (s.offer ev).cleanup = s.cleanup := rfl
@[simp] theorem State.offer_cmdIn (ev : TxEvent) : (s.offer ev).cmdIn = s.cmdIn := rfl
@[simp] theorem State.offer_txAns (ev : TxEvent) : (s.offer ev).txAns = s.txAns := rfl
@[simp] theorem State.offer_rstIn (ev : TxEvent) : (s.offer ev).rstIn = s.rstIn := rfl
@[simp] theorem State.offer_rspOut (ev : TxEvent) : (s.offer ev).rspOut = s.rspOut := rfl
@[simp] theorem State.offer_txOut (ev : TxEvent) : (s.offer ev).txOut = s.txOut := rfl
@[simp] theorem State.offer_draws (ev : TxEvent) : (s.offer ev).draws = s.draws := rfl

/-! ## offerAddressByte: the address byte (R127) -/

@[simp] theorem offerAddressByte_cfg : (offerAddressByte s).cfg = s.cfg := rfl
@[simp] theorem offerAddressByte_buf : (offerAddressByte s).buf = s.buf := rfl
@[simp] theorem offerAddressByte_fatal : (offerAddressByte s).fatal = s.fatal := rfl
@[simp] theorem offerAddressByte_ser : (offerAddressByte s).ser = s.ser := rfl
@[simp] theorem offerAddressByte_port : (offerAddressByte s).port = s.port := rfl
@[simp] theorem offerAddressByte_tx : (offerAddressByte s).tx = some (.byte (BitVec.ofNat 8 (s.ser.plane + 1))) := rfl
@[simp] theorem offerAddressByte_cleanup : (offerAddressByte s).cleanup = s.cleanup := rfl
@[simp] theorem offerAddressByte_cmdIn : (offerAddressByte s).cmdIn = s.cmdIn := rfl
@[simp] theorem offerAddressByte_txAns : (offerAddressByte s).txAns = s.txAns := rfl
@[simp] theorem offerAddressByte_rstIn : (offerAddressByte s).rstIn = s.rstIn := rfl
@[simp] theorem offerAddressByte_rspOut : (offerAddressByte s).rspOut = s.rspOut := rfl
@[simp] theorem offerAddressByte_txOut : (offerAddressByte s).txOut = s.txOut := rfl
@[simp] theorem offerAddressByte_draws : (offerAddressByte s).draws = s.draws := rfl

/-! ## State.bufWriteAll: the loop of CLEAR and FILL (R150, R151) -/

@[simp] theorem State.bufWriteAll_cfg (v : Byte) : (s.bufWriteAll v).cfg = s.cfg := rfl
@[simp] theorem State.bufWriteAll_buf (v : Byte) : (s.bufWriteAll v).buf = s.buf.writeAll s.cfg.bufLen v := rfl
@[simp] theorem State.bufWriteAll_fatal (v : Byte) : (s.bufWriteAll v).fatal = s.fatal := rfl
@[simp] theorem State.bufWriteAll_ser (v : Byte) : (s.bufWriteAll v).ser = s.ser := rfl
@[simp] theorem State.bufWriteAll_port (v : Byte) : (s.bufWriteAll v).port = s.port := rfl
@[simp] theorem State.bufWriteAll_tx (v : Byte) : (s.bufWriteAll v).tx = s.tx := rfl
@[simp] theorem State.bufWriteAll_cleanup (v : Byte) : (s.bufWriteAll v).cleanup = s.cleanup := rfl
@[simp] theorem State.bufWriteAll_cmdIn (v : Byte) : (s.bufWriteAll v).cmdIn = s.cmdIn := rfl
@[simp] theorem State.bufWriteAll_txAns (v : Byte) : (s.bufWriteAll v).txAns = s.txAns := rfl
@[simp] theorem State.bufWriteAll_rstIn (v : Byte) : (s.bufWriteAll v).rstIn = s.rstIn := rfl
@[simp] theorem State.bufWriteAll_rspOut (v : Byte) : (s.bufWriteAll v).rspOut = s.rspOut := rfl
@[simp] theorem State.bufWriteAll_txOut (v : Byte) : (s.bufWriteAll v).txOut = s.txOut := rfl
@[simp] theorem State.bufWriteAll_draws (v : Byte) : (s.bufWriteAll v).draws = s.draws := rfl

/-! ## State.finishFail: the end of TX_FAIL (R126) -/

@[simp] theorem State.finishFail_cfg : (s.finishFail).cfg = s.cfg := rfl
@[simp] theorem State.finishFail_buf : (s.finishFail).buf = s.buf := rfl
@[simp] theorem State.finishFail_fatal : (s.finishFail).fatal = true := rfl
@[simp] theorem State.finishFail_ser : (s.finishFail).ser = { s.ser with phase := .idle, cs := .deasserted, owned := false } := rfl
@[simp] theorem State.finishFail_port : (s.finishFail).port = .ready := rfl
@[simp] theorem State.finishFail_tx : (s.finishFail).tx = none := rfl
@[simp] theorem State.finishFail_cleanup : (s.finishFail).cleanup = false := rfl
@[simp] theorem State.finishFail_cmdIn : (s.finishFail).cmdIn = s.cmdIn := rfl
@[simp] theorem State.finishFail_txAns : (s.finishFail).txAns = s.txAns := rfl
@[simp] theorem State.finishFail_rstIn : (s.finishFail).rstIn = s.rstIn := rfl
@[simp] theorem State.finishFail_rspOut : (s.finishFail).rspOut = s.rspOut ++ [rspWord .errTransport 0x00#8] := rfl
@[simp] theorem State.finishFail_txOut : (s.finishFail).txOut = s.txOut := rfl
@[simp] theorem State.finishFail_draws : (s.finishFail).draws = s.draws := rfl

/-! ## State.finishUpdate: the end of UPDATE (R127) -/

@[simp] theorem State.finishUpdate_cfg : (s.finishUpdate).cfg = s.cfg := rfl
@[simp] theorem State.finishUpdate_buf : (s.finishUpdate).buf = s.buf := rfl
@[simp] theorem State.finishUpdate_fatal : (s.finishUpdate).fatal = s.fatal := rfl
@[simp] theorem State.finishUpdate_ser : (s.finishUpdate).ser = { s.ser with phase := .idle } := rfl
@[simp] theorem State.finishUpdate_port : (s.finishUpdate).port = .ready := rfl
@[simp] theorem State.finishUpdate_tx : (s.finishUpdate).tx = none := rfl
@[simp] theorem State.finishUpdate_cleanup : (s.finishUpdate).cleanup = s.cleanup := rfl
@[simp] theorem State.finishUpdate_cmdIn : (s.finishUpdate).cmdIn = s.cmdIn := rfl
@[simp] theorem State.finishUpdate_txAns : (s.finishUpdate).txAns = s.txAns := rfl
@[simp] theorem State.finishUpdate_rstIn : (s.finishUpdate).rstIn = s.rstIn := rfl
@[simp] theorem State.finishUpdate_rspOut : (s.finishUpdate).rspOut = s.rspOut ++ [rspWord .ok 0x00#8] := rfl
@[simp] theorem State.finishUpdate_txOut : (s.finishUpdate).txOut = s.txOut := rfl
@[simp] theorem State.finishUpdate_draws : (s.finishUpdate).draws = s.draws := rfl

/-! ## State.resetBlock: RST (R180) -/

@[simp] theorem State.resetBlock_cfg : (s.resetBlock).cfg = s.cfg := rfl
@[simp] theorem State.resetBlock_buf : (s.resetBlock).buf = ⟨[], []⟩ := rfl
@[simp] theorem State.resetBlock_fatal : (s.resetBlock).fatal = false := rfl
@[simp] theorem State.resetBlock_ser : (s.resetBlock).ser = Ser.reset := rfl
@[simp] theorem State.resetBlock_port : (s.resetBlock).port = .ready := rfl
@[simp] theorem State.resetBlock_tx : (s.resetBlock).tx = none := rfl
@[simp] theorem State.resetBlock_cleanup : (s.resetBlock).cleanup = false := rfl
@[simp] theorem State.resetBlock_cmdIn : (s.resetBlock).cmdIn = s.cmdIn := rfl
@[simp] theorem State.resetBlock_txAns : (s.resetBlock).txAns = s.txAns := rfl
@[simp] theorem State.resetBlock_rstIn : (s.resetBlock).rstIn = s.rstIn := rfl
@[simp] theorem State.resetBlock_rspOut : (s.resetBlock).rspOut = s.rspOut := rfl
@[simp] theorem State.resetBlock_txOut : (s.resetBlock).txOut = s.txOut := rfl
@[simp] theorem State.resetBlock_draws : (s.resetBlock).draws = s.draws := rfl

end Sys2Proof.Machine
end

