-- ==== Sys2Proof/Laws/Command.lean ====
section
/-! SUPPORT. For each command, once: every way it can answer a next state. -/

namespace Sys2Proof.Machine

variable {s t : State}

theorem bufRead_eq_some {o : Nat} {d : Byte} (h : s.bufRead o = some (d, t)) :
    o < s.cfg.bufLen ∧ d = s.buf.value o (Config.freeByte s.draws) ∧ t = { s with draws := s.draws + 1 } := by
  unfold State.bufRead at h
  split at h
  · simp only [Option.some.injEq, Prod.mk.injEq] at h
    exact ⟨‹_›, h.1.symm, h.2.symm⟩
  · cases h

theorem bufWrite_eq_some {o : Nat} {v : Byte} (h : s.bufWrite o v = some t) :
    o < s.cfg.bufLen ∧ t = { s with buf := s.buf.writeByte o v } := by
  unfold State.bufWrite at h
  split at h
  · exact ⟨‹_›, (Option.some.inj h).symm⟩
  · cases h

theorem bufWriteBit_eq_some {o k : Nat} {v : Bool} (h : s.bufWriteBit o k v = some t) :
    o < s.cfg.bufLen ∧ t = { s with buf := s.buf.writeBit o k v } := by
  unfold State.bufWriteBit at h
  split at h
  · exact ⟨‹_›, (Option.some.inj h).symm⟩
  · cases h

theorem raise_eq_next {e : Status} (h : raise e s = .next t) : t = s.respond e 0x00#8 := by
  cases h
  rfl

theorem execSetbyte_cases {c r : Nat} {v : Byte} (h : execSetbyte c r v s = .next t) :
    (s.fatal = true ∧ t = s.respond .errFatal 0x00#8) ∨
    (s.fatal = false ∧ inRangeD s.cfg c r = false ∧ t = s.respond .errRange 0x00#8) ∨
    (s.fatal = false ∧ inRangeD s.cfg c r = true ∧ addr s.cfg c r < s.cfg.bufLen ∧
      t = { s with buf := s.buf.writeByte (addr s.cfg c r) v }.respond .ok 0x00#8) := by
  unfold execSetbyte at h
  split at h
  · exact .inl ⟨‹_›, raise_eq_next h⟩
  · have hf : s.fatal = false := by simpa using ‹¬s.fatal = true›
    split at h
    · exact .inr (.inl ⟨hf, by simpa using ‹(!inRangeD s.cfg c r) = true›, raise_eq_next h⟩)
    · split at h
      · rename_i hw
        obtain ⟨ho, rfl⟩ := bufWrite_eq_some hw
        cases h
        exact .inr (.inr ⟨hf, by simpa using ‹¬(!inRangeD s.cfg c r) = true›, ho, rfl⟩)
      · cases h

theorem execGetbyte_cases {c r : Nat} (h : execGetbyte c r s = .next t) :
    (s.fatal = true ∧ t = s.respond .errFatal 0x00#8) ∨
    (s.fatal = false ∧ inRangeD s.cfg c r = false ∧ t = s.respond .errRange 0x00#8) ∨
    (s.fatal = false ∧ inRangeD s.cfg c r = true ∧ addr s.cfg c r < s.cfg.bufLen ∧
      t = { s with draws := s.draws + 1 }.respond .ok
        (s.buf.value (addr s.cfg c r) (Config.freeByte s.draws))) := by
  unfold execGetbyte at h
  split at h
  · exact .inl ⟨‹_›, raise_eq_next h⟩
  · have hf : s.fatal = false := by simpa using ‹¬s.fatal = true›
    split at h
    · exact .inr (.inl ⟨hf, by simpa using ‹(!inRangeD s.cfg c r) = true›, raise_eq_next h⟩)
    · split at h
      · rename_i hr
        obtain ⟨ho, rfl, rfl⟩ := bufRead_eq_some hr
        cases h
        exact .inr (.inr ⟨hf, by simpa using ‹¬(!inRangeD s.cfg c r) = true›, ho, rfl⟩)
      · cases h

theorem execSetdot_cases {x y : Nat} {f : Bool} (h : execSetdot x y f s = .next t) :
    (s.fatal = true ∧ t = s.respond .errFatal 0x00#8) ∨
    (s.fatal = false ∧ (inRangeP s.cfg x y = false ∨ segLookup s.cfg.segTable (pixelCode x y) = none) ∧
      t = s.respond .ok 0x00#8) ∨
    (s.fatal = false ∧ inRangeP s.cfg x y = true ∧ pixelOffset s.cfg x y < s.cfg.bufLen ∧
      ∃ k, segLookup s.cfg.segTable (pixelCode x y) = some k ∧
        t = { s with buf := s.buf.writeBit (pixelOffset s.cfg x y) k f }.respond .ok 0x00#8) := by
  unfold execSetdot at h
  split at h
  · exact .inl ⟨‹_›, raise_eq_next h⟩
  · have hf : s.fatal = false := by simpa using ‹¬s.fatal = true›
    split at h
    · cases h
      exact .inr (.inl ⟨hf, .inl (by simpa using ‹(!inRangeP s.cfg x y) = true›), rfl⟩)
    · split at h
      · cases h
        exact .inr (.inl ⟨hf, .inr ‹_›, rfl⟩)
      · rename_i k hk
        split at h
        · rename_i hw
          obtain ⟨ho, rfl⟩ := bufWriteBit_eq_some hw
          cases h
          exact .inr (.inr ⟨hf, by simpa using ‹¬(!inRangeP s.cfg x y) = true›, ho, k, hk, rfl⟩)
        · cases h

theorem execClear_cases (h : execClear s = .next t) :
    (s.fatal = true ∧ t = s.respond .errFatal 0x00#8) ∨
    (s.fatal = false ∧ t = (s.bufWriteAll 0x00#8).respond .ok 0x00#8) := by
  unfold execClear at h
  split at h
  · exact .inl ⟨‹_›, raise_eq_next h⟩
  · cases h
    exact .inr ⟨by simpa using ‹¬s.fatal = true›, rfl⟩

theorem execFill_cases {v : Byte} (h : execFill v s = .next t) :
    (s.fatal = true ∧ t = s.respond .errFatal 0x00#8) ∨
    (s.fatal = false ∧ t = (s.bufWriteAll v).respond .ok 0x00#8) := by
  unfold execFill at h
  split at h
  · exact .inl ⟨‹_›, raise_eq_next h⟩
  · cases h
    exact .inr ⟨by simpa using ‹¬s.fatal = true›, rfl⟩

/-- The state an UPDATE's acceptance leaves (R127). -/
def updateStarted (s : State) : State :=
  { s with
    ser := { s.ser with phase := .run, plane := 0, slot := 0, half := .addr }
    port := .busy
    cleanup := false
    tx := some .acquire }

theorem execUpdate_cases (h : execUpdate s = .next t) :
    (s.fatal = true ∧ t = s.respond .errFatal 0x00#8) ∨ (s.fatal = false ∧ t = updateStarted s) := by
  unfold execUpdate at h
  split at h
  · exact .inl ⟨‹_›, raise_eq_next h⟩
  · cases h
    exact .inr ⟨by simpa using ‹¬s.fatal = true›, rfl⟩

/-- Every way any command can answer a next state: a response with the buffer as it was, a byte read, the buffer changed
(in canonical form if it was), or an UPDATE started. -/
theorem exec_cases {i : Instr} (h : exec i s = .next t) :
    (∃ st, t = s.respond st 0x00#8) ∨
    (∃ c r, i = .getbyte c r ∧ s.fatal = false ∧
      t = { s with draws := s.draws + 1 }.respond .ok (s.buf.value (addr s.cfg c r) (Config.freeByte s.draws))) ∨
    (∃ b, i ≠ .update ∧ s.fatal = false ∧ (Buffer.wf s.cfg.bufLen s.buf = true → Buffer.wf s.cfg.bufLen b = true) ∧
      t = { s with buf := b }.respond .ok 0x00#8) ∨
    (i = .update ∧ s.fatal = false ∧ t = updateStarted s) := by
  cases i with
  | setdot x y f =>
    rcases execSetdot_cases h with ⟨-, rfl⟩ | ⟨-, -, rfl⟩ | ⟨hf, -, ho, k, -, rfl⟩
    · exact .inl ⟨_, rfl⟩
    · exact .inl ⟨_, rfl⟩
    · exact .inr (.inr (.inl ⟨_, by simp, hf, fun hb => Buffer.writeBit_wf hb ho, rfl⟩))
  | setbyte c r v =>
    rcases execSetbyte_cases h with ⟨-, rfl⟩ | ⟨-, -, rfl⟩ | ⟨hf, -, ho, rfl⟩
    · exact .inl ⟨_, rfl⟩
    · exact .inl ⟨_, rfl⟩
    · exact .inr (.inr (.inl ⟨_, by simp, hf, fun hb => Buffer.writeByte_wf hb ho, rfl⟩))
  | getbyte c r =>
    rcases execGetbyte_cases h with ⟨-, rfl⟩ | ⟨-, -, rfl⟩ | ⟨hf, -, -, rfl⟩
    · exact .inl ⟨_, rfl⟩
    · exact .inl ⟨_, rfl⟩
    · exact .inr (.inl ⟨c, r, rfl, hf, rfl⟩)
  | clear =>
    rcases execClear_cases h with ⟨-, rfl⟩ | ⟨hf, rfl⟩
    · exact .inl ⟨_, rfl⟩
    · exact .inr (.inr (.inl ⟨_, by simp, hf, fun hb => Buffer.writeAll_wf hb, rfl⟩))
  | fill v =>
    rcases execFill_cases h with ⟨-, rfl⟩ | ⟨hf, rfl⟩
    · exact .inl ⟨_, rfl⟩
    · exact .inr (.inr (.inl ⟨_, by simp, hf, fun hb => Buffer.writeAll_wf hb, rfl⟩))
  | update =>
    rcases execUpdate_cases h with ⟨-, rfl⟩ | ⟨hf, rfl⟩
    · exact .inl ⟨_, rfl⟩
    · exact .inr (.inr (.inr ⟨rfl, hf, rfl⟩))

end Sys2Proof.Machine
end

