-- ==== Sys2Proof/Laws/Decode.lean ====
section
/-! SUPPORT. The opcode map, the fields and the encoder as arithmetic on the word's number. -/

namespace Sys2Proof

/-- Masking off the k low bits. -/
theorem and_highMask (w : Word) (k : Nat) : w &&& (BitVec.allOnes 32 <<< k) = (w >>> k) <<< k := by
  apply BitVec.eq_of_getLsbD_eq
  intro i hi
  by_cases h : i < k
  · simp [h, hi]
  · have : k + (i - k) = i := by omega

    simp [-BitVec.reduceAllOnes, h, hi, this]

/-- A row whose mask is the bits from k up matches exactly the words whose number has quotient c. -/
theorem and_highMask_eq_iff {w : Word} {k c : Nat} (hc : c * 2 ^ k < 2 ^ 32) :
    w &&& (BitVec.allOnes 32 <<< k) = BitVec.ofNat 32 (c * 2 ^ k) ↔ w.toNat / 2 ^ k = c := by
  have hw : w.toNat / 2 ^ k * 2 ^ k < 2 ^ 32 := Nat.lt_of_le_of_lt (Nat.div_mul_le_self _ _) w.isLt
  rw [and_highMask, ← BitVec.toNat_inj]
  simp only [BitVec.toNat_shiftLeft, BitVec.toNat_ushiftRight, BitVec.toNat_ofNat, Nat.shiftRight_eq_div_pow,
    Nat.shiftLeft_eq, Nat.mod_eq_of_lt hw, Nat.mod_eq_of_lt hc]
  constructor
  · intro h; exact Nat.eq_of_mul_eq_mul_right (Nat.two_pow_pos k) h
  · rintro rfl; rfl

theorem selects_setdot {w : Word} : rowSetdot.selects w = true ↔ w.toNat / 2 ^ 25 = 8 := by
  rw [OpcodeRow.selects, beq_iff_eq]; exact and_highMask_eq_iff (k := 25) (c := 8) (by decide)

theorem selects_setbyte {w : Word} : rowSetbyte.selects w = true ↔ w.toNat / 2 ^ 28 = 2 := by
  rw [OpcodeRow.selects, beq_iff_eq]; exact and_highMask_eq_iff (k := 28) (c := 2) (by decide)

theorem selects_getbyte {w : Word} : rowGetbyte.selects w = true ↔ w.toNat / 2 ^ 20 = 768 := by
  rw [OpcodeRow.selects, beq_iff_eq]; exact and_highMask_eq_iff (k := 20) (c := 768) (by decide)

theorem selects_clear {w : Word} : rowClear.selects w = true ↔ w.toNat = 0x40000000 := by
  rw [OpcodeRow.selects, beq_iff_eq]
  exact (and_highMask_eq_iff (k := 0) (c := 0x40000000) (by decide)).trans (by simp)

theorem selects_fill {w : Word} : rowFill.selects w = true ↔ w.toNat / 2 ^ 8 = 0x500000 := by
  rw [OpcodeRow.selects, beq_iff_eq]; exact and_highMask_eq_iff (k := 8) (c := 0x500000) (by decide)

theorem selects_update {w : Word} : rowUpdate.selects w = true ↔ w.toNat = 0x60000000 := by
  rw [OpcodeRow.selects, beq_iff_eq]
  exact (and_highMask_eq_iff (k := 0) (c := 0x60000000) (by decide)).trans (by simp)

/-- A field as a quotient and a remainder. -/
theorem wordField_eq (w : Word) (hi lo : Nat) : wordField w hi lo = w.toNat / 2 ^ lo % 2 ^ (hi - lo + 1) := by
  simp [wordField, BitVec.extractLsb_toNat, Nat.shiftRight_eq_div_pow]

theorem placeField_toNat {v lo : Nat} (h : v * 2 ^ lo < 2 ^ 32) : (placeField v lo).toNat = v * 2 ^ lo := by
  have hv : v < 2 ^ 32 := Nat.lt_of_le_of_lt (Nat.le_mul_of_pos_right v (Nat.two_pow_pos lo)) h
  simp only [placeField, BitVec.toNat_shiftLeft, BitVec.toNat_ofNat, Nat.mod_eq_of_lt hv, Nat.shiftLeft_eq,
    Nat.mod_eq_of_lt h]

/-- Every way a word can decode, by rows, in the order of the map. -/
theorem decode_cases (w : Word) :
    (w.toNat / 2 ^ 25 = 8 ∧
      decode w = .instr (.setdot (wordField w 11 0) (wordField w 23 12) (w.getLsbD 24))) ∨
    (w.toNat / 2 ^ 28 = 2 ∧
      decode w = .instr (.setbyte (wordField w 9 0) (wordField w 19 10) (w.extractLsb 27 20))) ∨
    (w.toNat / 2 ^ 20 = 768 ∧ decode w = .instr (.getbyte (wordField w 9 0) (wordField w 19 10))) ∨
    (w.toNat = 0x40000000 ∧ decode w = .instr .clear) ∨
    (w.toNat / 2 ^ 8 = 0x500000 ∧ decode w = .instr (.fill (w.extractLsb 7 0))) ∨
    (w.toNat = 0x60000000 ∧ decode w = .instr .update) ∨
    ((w.toNat / 2 ^ 25 ≠ 8 ∧ w.toNat / 2 ^ 28 ≠ 2 ∧ w.toNat / 2 ^ 20 ≠ 768 ∧ w.toNat ≠ 0x40000000 ∧
      w.toNat / 2 ^ 8 ≠ 0x500000 ∧ w.toNat ≠ 0x60000000) ∧ decode w = .illegal (illegalReason w)) := by
  unfold decode
  simp only [selects_setdot, selects_setbyte, selects_getbyte, selects_clear, selects_fill, selects_update]
  split_ifs <;> tauto

/-! ## The encoder: its fields do not overlap, so the ORs of R70 are sums -/

/-- An OR with a value below every bit of the first is a sum. -/
theorem or_toNat_eq_add {a b : Word} (k : Nat) (ha : a.toNat % 2 ^ k = 0) (hb : b.toNat < 2 ^ k) :
    (a ||| b).toNat = a.toNat + b.toNat := by
  obtain ⟨q, hq⟩ := Nat.dvd_of_mod_eq_zero ha
  rw [BitVec.toNat_or, hq]
  exact (Nat.two_pow_add_eq_or_of_lt hb q).symm

theorem encode_setdot_toNat {x y : Nat} {f : Bool} (hx : x < 4096) (hy : y < 4096) :
    (encode (.setdot x y f)).toNat = 0x10000000 + f.toNat * 2 ^ 24 + y * 2 ^ 12 + x := by
  have hf : f.toNat ≤ 1 := Bool.toNat_le f
  have h1 : (placeField f.toNat 24).toNat = f.toNat * 2 ^ 24 := placeField_toNat (by omega)
  have h2 : (placeField y 12).toNat = y * 2 ^ 12 := placeField_toNat (by omega)
  have h3 : (placeField x 0).toNat = x := by simpa using placeField_toNat (v := x) (lo := 0) (by omega)
  have e1 : (0x10000000#32 ||| placeField f.toNat 24).toNat = 0x10000000 + f.toNat * 2 ^ 24 := by
    rw [or_toNat_eq_add 28 (by rfl) (by omega), h1]; rfl
  have e2 : (0x10000000#32 ||| placeField f.toNat 24 ||| placeField y 12).toNat =
      0x10000000 + f.toNat * 2 ^ 24 + y * 2 ^ 12 := by
    rw [or_toNat_eq_add 24 (by omega) (by omega), e1, h2]
  rw [encode, or_toNat_eq_add 12 (by omega) (by omega), e2, h3]

theorem encode_setbyte_toNat {c r : Nat} {v : Byte} (hc : c < 1024) (hr : r < 1024) :
    (encode (.setbyte c r v)).toNat = 0x20000000 + v.toNat * 2 ^ 20 + r * 2 ^ 10 + c := by
  have hv : v.toNat < 2 ^ 8 := v.isLt
  have h1 : (placeField v.toNat 20).toNat = v.toNat * 2 ^ 20 := placeField_toNat (by omega)
  have h2 : (placeField r 10).toNat = r * 2 ^ 10 := placeField_toNat (by omega)
  have h3 : (placeField c 0).toNat = c := by simpa using placeField_toNat (v := c) (lo := 0) (by omega)
  have e1 : (0x20000000#32 ||| placeField v.toNat 20).toNat = 0x20000000 + v.toNat * 2 ^ 20 := by
    rw [or_toNat_eq_add 28 (by rfl) (by omega), h1]; rfl
  have e2 : (0x20000000#32 ||| placeField v.toNat 20 ||| placeField r 10).toNat =
      0x20000000 + v.toNat * 2 ^ 20 + r * 2 ^ 10 := by
    rw [or_toNat_eq_add 20 (by omega) (by omega), e1, h2]
  rw [encode, or_toNat_eq_add 10 (by omega) (by omega), e2, h3]

theorem encode_getbyte_toNat {c r : Nat} (hc : c < 1024) (hr : r < 1024) :
    (encode (.getbyte c r)).toNat = 0x30000000 + r * 2 ^ 10 + c := by
  have h2 : (placeField r 10).toNat = r * 2 ^ 10 := placeField_toNat (by omega)
  have h3 : (placeField c 0).toNat = c := by simpa using placeField_toNat (v := c) (lo := 0) (by omega)
  have e2 : (0x30000000#32 ||| placeField r 10).toNat = 0x30000000 + r * 2 ^ 10 := by
    rw [or_toNat_eq_add 20 (by rfl) (by omega), h2]; rfl
  rw [encode, or_toNat_eq_add 10 (by omega) (by omega), e2, h3]

theorem encode_fill_toNat {v : Byte} : (encode (.fill v)).toNat = 0x50000000 + v.toNat := by
  have hv : v.toNat < 2 ^ 8 := v.isLt
  have h3 : (placeField v.toNat 0).toNat = v.toNat := by
    simpa using placeField_toNat (v := v.toNat) (lo := 0) (by omega)
  rw [encode, or_toNat_eq_add 8 (by rfl) (by omega), h3]; rfl

end Sys2Proof
end

