-- ==== Sys2Proof/Laws/Flags.lean ====
section
/-! SUPPORT. The fields of a response word (spec/30_encoding.md R61). -/

namespace Sys2Proof.Machine

theorem rspWord_toNat (st : Status) (d : Byte) : (rspWord st d).toNat = st.code.toNat * 256 + d.toNat := by
  have hd : d.toNat < 2 ^ 8 := d.isLt
  have h : st.code.toNat <<< 8 ||| d.toNat = 2 ^ 8 * st.code.toNat + d.toNat := by
    rw [Nat.shiftLeft_eq, Nat.mul_comm]
    exact (Nat.two_pow_add_eq_or_of_lt hd _).symm
  simp only [rspWord, BitVec.toNat_append, BitVec.toNat_ofNat, Nat.zero_mod, Nat.zero_shiftLeft, Nat.zero_or, h]
  omega

theorem status_code_le (st : Status) : st.code.toNat ≤ 4 := by cases st <;> decide

@[simp] theorem rspReserved_rspWord (st : Status) (d : Byte) : rspReserved (rspWord st d) = 0#4 := by
  apply BitVec.eq_of_toNat_eq
  have := status_code_le st
  have := d.isLt
  have h : (rspReserved (rspWord st d)).toNat = (rspWord st d).toNat / 2 ^ 12 % 2 ^ 4 := by
    simp [rspReserved, BitVec.extractLsb_toNat, Nat.shiftRight_eq_div_pow]
  rw [h, rspWord_toNat]
  simp only [BitVec.toNat_ofNat]
  omega

@[simp] theorem rspStatus_rspWord (st : Status) (d : Byte) : rspStatus (rspWord st d) = st.code := by
  apply BitVec.eq_of_toNat_eq
  have := st.code.isLt
  have := d.isLt
  have h : (rspStatus (rspWord st d)).toNat = (rspWord st d).toNat / 2 ^ 8 % 2 ^ 4 := by
    simp [rspStatus, BitVec.extractLsb_toNat, Nat.shiftRight_eq_div_pow]
  rw [h, rspWord_toNat]
  omega

@[simp] theorem rspData_rspWord (st : Status) (d : Byte) : rspData (rspWord st d) = d := by
  apply BitVec.eq_of_toNat_eq
  have := d.isLt
  have h : (rspData (rspWord st d)).toNat = (rspWord st d).toNat % 2 ^ 8 := by
    simp [rspData, BitVec.extractLsb_toNat]
  rw [h, rspWord_toNat]
  omega

/-- Two responses are the same word only with the same STATUS and DATA. -/
theorem rspWord_inj {st st' : Status} {d d' : Byte} (h : rspWord st d = rspWord st' d') : st = st' ∧ d = d' := by
  have hs : st.code = st'.code := by rw [← rspStatus_rspWord st d, h, rspStatus_rspWord]
  have hd : d = d' := by rw [← rspData_rspWord st d, h, rspData_rspWord]
  refine ⟨?_, hd⟩
  revert hs
  cases st <;> cases st' <;> decide

end Sys2Proof.Machine
end

