-- ==== Sys2Proof/Laws/PerInstr.lean ====
section
/-! SUPPORT. Statements for all commands, one lemma per constructor (LAWS.json). -/

namespace Sys2Proof.Laws.EncodeSelectsRow

/-- A well-formed command's encoding selects the command's own row of the opcode map (R64, R70). -/
def Statement (i : Instr) : Prop := i.wellFormed = true → i.row.selects (encode i) = true

theorem setdot (x y : Nat) (f : Bool) : Statement (.setdot x y f) := by
  intro h
  simp only [Instr.wellFormed, Bool.and_eq_true, decide_eq_true_eq] at h
  have hf : f.toNat ≤ 1 := Bool.toNat_le f
  rw [Instr.row, selects_setdot, encode_setdot_toNat h.1 h.2]
  omega

theorem setbyte (c r : Nat) (v : Byte) : Statement (.setbyte c r v) := by
  intro h
  simp only [Instr.wellFormed, Bool.and_eq_true, decide_eq_true_eq] at h
  have hv : v.toNat < 2 ^ 8 := v.isLt
  rw [Instr.row, selects_setbyte, encode_setbyte_toNat h.1 h.2]
  omega

theorem getbyte (c r : Nat) : Statement (.getbyte c r) := by
  intro h
  simp only [Instr.wellFormed, Bool.and_eq_true, decide_eq_true_eq] at h
  rw [Instr.row, selects_getbyte, encode_getbyte_toNat h.1 h.2]
  omega

theorem clear : Statement .clear := fun _ => selects_clear.mpr rfl

theorem fill (v : Byte) : Statement (.fill v) := by
  intro _
  have hv : v.toNat < 2 ^ 8 := v.isLt
  rw [Instr.row, selects_fill, encode_fill_toNat]
  omega

theorem update : Statement .update := fun _ => selects_update.mpr rfl

end Sys2Proof.Laws.EncodeSelectsRow
end

