-- ==== Sys2Proof/Laws/Serializer.lean ====
section
/-! SUPPORT. What an answer of the Transport can do to the block, once (spec/42_frame_serializer.md R125 to R127). -/

namespace Sys2Proof.Machine

variable {s t : State}

theorem offerDataByte_cases (h : offerDataByte s = .next t) :
    ∃ d, displayIndex s.cfg s.ser.slot = some d ∧ d * 8 + s.ser.plane < s.cfg.bufLen ∧
      t = { s with
        draws := s.draws + 1
        tx := some (.byte (s.buf.value (d * 8 + s.ser.plane) (Config.freeByte s.draws))) } := by
  unfold offerDataByte at h
  split at h
  · cases h
  · rename_i d hd
    split at h
    · rename_i hr
      obtain ⟨ho, rfl, rfl⟩ := bufRead_eq_some hr
      cases h
      exact ⟨d, hd, ho, rfl⟩
    · cases h

/-- The slot's data byte can be offered whenever the configuration is well formed. -/
theorem offerDataByte_next (hc : s.cfg.wellFormed = true) (hj : s.ser.slot < s.cfg.numModules) (hi : s.ser.plane < 8) :
    ∃ d, displayIndex s.cfg s.ser.slot = some d ∧
      offerDataByte s = .next { s with
        draws := s.draws + 1
        tx := some (.byte (s.buf.value (d * 8 + s.ser.plane) (Config.freeByte s.draws))) } := by
  obtain ⟨d, hd, hlt⟩ := exists_displayIndex hc hj
  refine ⟨d, hd, ?_⟩
  simp [offerDataByte, hd, State.bufRead, bank_lt_bufLen hlt hi, State.offer]

/-- Every way an accepted event can go on to a next state. -/
theorem eventAccepted_cases {ev : TxEvent} (h : eventAccepted ev s = .next t) :
    (ev = .acquire ∧ t = { s with ser := { s.ser with owned := true }, tx := some .csAssert }) ∨
    (ev = .csAssert ∧ t = { s with
      ser := { s.ser with cs := .asserted, slot := 0, half := .addr }
      tx := some (.byte (BitVec.ofNat 8 (s.ser.plane + 1))) }) ∨
    (∃ v, ev = .byte v ∧ s.ser.half = .addr ∧
      ∃ d, displayIndex s.cfg s.ser.slot = some d ∧ d * 8 + s.ser.plane < s.cfg.bufLen ∧ t = { s with
        ser := { s.ser with half := .data }
        draws := s.draws + 1
        tx := some (.byte (s.buf.value (d * 8 + s.ser.plane) (Config.freeByte s.draws))) }) ∨
    (∃ v, ev = .byte v ∧ s.ser.half = .data ∧ s.ser.slot + 1 < s.cfg.numModules ∧ t = { s with
      ser := { s.ser with slot := s.ser.slot + 1, half := .addr }
      tx := some (.byte (BitVec.ofNat 8 (s.ser.plane + 1))) }) ∨
    (∃ v, ev = .byte v ∧ s.ser.half = .data ∧ ¬ s.ser.slot + 1 < s.cfg.numModules ∧
      t = { s with tx := some .csDeassert }) ∨
    (ev = .csDeassert ∧ t = { s with ser := { s.ser with cs := .deasserted }, tx := some .release }) ∨
    (ev = .release ∧ s.ser.plane + 1 < 8 ∧ t = { s with
      ser := { s.ser with owned := false, plane := s.ser.plane + 1, slot := 0, half := .addr }
      tx := some .acquire }) ∨
    (ev = .release ∧ ¬ s.ser.plane + 1 < 8 ∧
      t = { s with ser := { s.ser with owned := false } }.finishUpdate) := by
  cases ev with
  | acquire => cases h; exact .inl ⟨rfl, rfl⟩
  | csAssert => cases h; exact .inr (.inl ⟨rfl, rfl⟩)
  | byte v =>
    simp only [eventAccepted] at h
    split at h
    · rename_i hh
      obtain ⟨d, hd, ho, rfl⟩ := offerDataByte_cases h
      exact .inr (.inr (.inl ⟨v, rfl, hh, d, hd, ho, rfl⟩))
    · rename_i hh
      split at h
      · cases h; exact .inr (.inr (.inr (.inl ⟨v, rfl, hh, ‹_›, rfl⟩)))
      · cases h; exact .inr (.inr (.inr (.inr (.inl ⟨v, rfl, hh, ‹_›, rfl⟩))))
  | csDeassert => cases h; exact .inr (.inr (.inr (.inr (.inr (.inl ⟨rfl, rfl⟩)))))
  | release =>
    simp only [eventAccepted] at h
    split at h
    · cases h; exact .inr (.inr (.inr (.inr (.inr (.inr (.inl ⟨rfl, ‹_›, rfl⟩))))))
    · cases h; exact .inr (.inr (.inr (.inr (.inr (.inr (.inr ⟨rfl, ‹_›, rfl⟩))))))

/-- What TX_FAIL does on entry: a cleanup event offered, or the command ended. -/
theorem txFail_cases (ev : TxEvent) (s : State) :
    ((ev = .acquire ∨ ev = .release) ∧ txFail ev s = s.finishFail) ∨
    ((ev = .csAssert ∨ ∃ v, ev = .byte v) ∧
      txFail ev s = { s with cleanup := true, tx := some .csDeassert }) ∨
    (ev = .csDeassert ∧ txFail ev s = { s with cleanup := true, tx := some .release }) := by
  cases ev with
  | acquire => exact .inl ⟨.inl rfl, rfl⟩
  | csAssert => exact .inr (.inl ⟨.inl rfl, rfl⟩)
  | byte v => exact .inr (.inl ⟨.inr ⟨v, rfl⟩, rfl⟩)
  | csDeassert => exact .inr (.inr ⟨rfl, rfl⟩)
  | release => exact .inl ⟨.inr rfl, rfl⟩

/-- What an answer to a cleanup event does: RELEASE after CS_DEASSERT, the end after anything else. -/
theorem cleanupAnswered_cases (ev : TxEvent) (s : State) :
    (ev = .csDeassert ∧ cleanupAnswered ev s = { s with tx := some .release }) ∨
    (ev ≠ .csDeassert ∧ cleanupAnswered ev s = s.finishFail) := by
  cases ev with
  | csDeassert => exact .inl ⟨rfl, rfl⟩
  | acquire => exact .inr ⟨by simp, rfl⟩
  | csAssert => exact .inr ⟨by simp, rfl⟩
  | byte v => exact .inr ⟨by simp, rfl⟩
  | release => exact .inr ⟨by simp, rfl⟩

/-- The Transport's turn: nothing, a used-up absence of an answer, or an answer recorded and acted on. -/
theorem transportTurn_cases {ev : TxEvent} (h : transportTurn ev s = .next t) :
    (s.txAns = [] ∧ t = s) ∨
    (∃ rest, s.txAns = none :: rest ∧ t = { s with txAns := rest }) ∨
    (∃ a rest, s.txAns = some a :: rest ∧
      eventAnswered ev a { s with txAns := rest, txOut := s.txOut ++ [⟨ev, a⟩] } = .next t) := by
  unfold transportTurn at h
  split at h
  · cases h; exact .inl ⟨‹_›, rfl⟩
  · cases h; exact .inr (.inl ⟨_, ‹_›, rfl⟩)
  · exact .inr (.inr ⟨_, _, ‹_›, h⟩)

theorem eventAnswered_cases {ev : TxEvent} {a : TxAnswer} (h : eventAnswered ev a s = .next t) :
    (s.cleanup = true ∧ t = cleanupAnswered ev s) ∨
    (s.cleanup = false ∧ a = .accept ∧ eventAccepted ev s = .next t) ∨
    (s.cleanup = false ∧ a = .fail ∧ t = txFail ev s) := by
  unfold eventAnswered at h
  split at h
  · cases h; exact .inl ⟨‹_›, rfl⟩
  · have hc : s.cleanup = false := by simpa using ‹¬s.cleanup = true›
    split at h
    · exact .inr (.inl ⟨hc, rfl, h⟩)
    · cases h; exact .inr (.inr ⟨hc, rfl, rfl⟩)

end Sys2Proof.Machine
end

