-- ==== Sys2Proof/Laws/Step.lean ====
section
/-! SUPPORT. What one step can do, once. -/

namespace Sys2Proof.Machine

variable {s t : State}

/-- The block's turn: it waits on the Transport, has nothing to do, or accepts the next word. -/
theorem blockTurn_cases (h : blockTurn s = .next t) :
    (∃ ev, s.tx = some ev ∧ transportTurn ev s = .next t) ∨
    (s.tx = none ∧ (s.port = .busy ∨ s.cmdIn = []) ∧ t = s) ∨
    (s.tx = none ∧ s.port = .ready ∧ ∃ w rest, s.cmdIn = w :: rest ∧ runWord w { s with cmdIn := rest } = .next t) := by
  unfold blockTurn at h
  split at h
  · exact .inl ⟨_, ‹_›, h⟩
  · split at h
    · cases h; exact .inr (.inl ⟨‹_›, .inl ‹_›, rfl⟩)
    · split at h
      · cases h; exact .inr (.inl ⟨‹_›, .inr ‹_›, rfl⟩)
      · exact .inr (.inr ⟨‹_›, ‹_›, _, _, ‹_›, h⟩)

/-- A word accepted: a command run, or an illegal word answered. -/
theorem runWord_cases {w : Word} (h : runWord w s = .next t) :
    (∃ i, decode w = .instr i ∧ exec i s = .next t) ∨
    (∃ why, decode w = .illegal why ∧ t = s.respond .errIllegal 0x00#8) := by
  unfold runWord at h
  split at h
  · exact .inl ⟨_, ‹_›, h⟩
  · exact .inr ⟨_, ‹_›, raise_eq_next h⟩

theorem popRst_of_nil (h : s.rstIn = []) : { s with rstIn := s.rstIn.tail } = s := by
  cases s
  simp only at h
  subst h
  rfl

/-- A turn: RST, or the block's turn with a level of RST used up. -/
theorem machineTurn_cases (h : machineTurn s = .next t) :
    (∃ rest, s.rstIn = true :: rest ∧ t = { s with rstIn := rest }.resetBlock) ∨
    (s.rstIn.head? ≠ some true ∧ blockTurn { s with rstIn := s.rstIn.tail } = .next t) := by
  unfold machineTurn at h
  split at h
  · cases h; exact .inl ⟨_, ‹_›, rfl⟩
  · rename_i rest hr
    exact .inr ⟨by simp [hr], by simpa [hr] using h⟩
  · rename_i hr
    refine .inr ⟨by simp [hr], ?_⟩
    rwa [popRst_of_nil hr]

/-- A step that answers a next state takes a turn of a well-formed instance. -/
theorem step_cases (h : step s = .next t) : s.cfg.wellFormed = true ∧ machineTurn s = .next t := by
  unfold step at h
  split at h
  · cases h
  · exact ⟨configProblem_eq_none.mp ‹_›, h⟩

/-- On a well-formed instance a step is a turn. -/
theorem step_of_wellFormed (hc : s.cfg.wellFormed = true) : step s = machineTurn s := by
  simp [step, configProblem_eq_none.mpr hc]

/-- With RST deasserted a step is the block's turn, one level of RST used up. -/
theorem step_eq_blockTurn (hc : s.cfg.wellFormed = true) (hr : s.rstIn.head? ≠ some true) :
    step s = blockTurn { s with rstIn := s.rstIn.tail } := by
  rw [step_of_wellFormed hc]
  unfold machineTurn
  split
  · rename_i rest h
    simp [h] at hr
  · rename_i rest h
    simp [h]
  · rename_i h
    rw [popRst_of_nil h]

/-- With an event offered and the Transport's next answer there, a step is that answer's effect (R125). -/
theorem step_of_answer {ev : TxEvent} {a : TxAnswer} {A : List (Option TxAnswer)} (hc : s.cfg.wellFormed = true)
    (hr : s.rstIn.head? ≠ some true) (htx : s.tx = some ev) (ha : s.txAns = some a :: A) :
    step s = eventAnswered ev a
      { s with rstIn := s.rstIn.tail, txAns := A, txOut := s.txOut ++ [⟨ev, a⟩] } := by
  rw [step_eq_blockTurn hc hr]
  simp only [blockTurn, htx, transportTurn, ha]

/-- With an event offered and no answer, a step only uses that absence up (R125). -/
theorem step_of_stall {ev : TxEvent} {A : List (Option TxAnswer)} (hc : s.cfg.wellFormed = true)
    (hr : s.rstIn.head? ≠ some true) (htx : s.tx = some ev) (ha : s.txAns = none :: A) :
    step s = .next { s with rstIn := s.rstIn.tail, txAns := A } := by
  rw [step_eq_blockTurn hc hr]
  simp only [blockTurn, htx, transportTurn, ha]

end Sys2Proof.Machine
end

