-- ==== Sys2Proof/Laws/Run.lean ====
section
/-! SUPPORT. Runs of the machine: a run unfolds step by step, runs compose, what every step keeps every run keeps, and a run
through a stall of the Transport. -/

namespace Sys2Proof.Machine

variable {s t u : State}

@[simp] theorem run_zero (s : State) : Sys2Proof.core.run 0 s = .next s := rfl

/-- One step of a run, for any machine of the host's interface. -/
theorem core_run_succ (M : Host.Core) {a b : M.State} (h : M.step a = .next b) (k : Nat) : M.run (k + 1) a = M.run k b := by
  have e : M.run (k + 1) a = (match M.step a with
    | .next s' => M.run k s'
    | .fault r => .fault r
    | .refused r => .refused r) := rfl
  rw [e, h]

theorem core_run_succ_cases (M : Host.Core) {a c : M.State} {k : Nat} (h : M.run (k + 1) a = .next c) :
    ∃ b, M.step a = .next b ∧ M.run k b = .next c := by
  have e : M.run (k + 1) a = (match M.step a with
    | .next s' => M.run k s'
    | .fault r => .fault r
    | .refused r => .refused r) := rfl
  rw [e] at h
  split at h
  · exact ⟨_, ‹_›, h⟩
  · cases h
  · cases h

/-- A run of k + 1 steps is a step and a run of k. -/
theorem run_succ (h : step s = .next t) (k : Nat) : Sys2Proof.core.run (k + 1) s = Sys2Proof.core.run k t :=
  core_run_succ Sys2Proof.core h k

theorem run_one (h : step s = .next t) : Sys2Proof.core.run 1 s = .next t := run_succ h 0

/-- A run that answers a next state begins with a step that does. -/
theorem run_succ_cases {k : Nat} (h : Sys2Proof.core.run (k + 1) s = .next u) :
    ∃ t, step s = .next t ∧ Sys2Proof.core.run k t = .next u :=
  core_run_succ_cases Sys2Proof.core h

/-- Runs compose. -/
theorem run_add {j k : Nat} (h : Sys2Proof.core.run j s = .next t) :
    Sys2Proof.core.run (j + k) s = Sys2Proof.core.run k t := by
  induction j generalizing s with
  | zero => rw [Nat.zero_add]; cases h; rfl
  | succ j ih =>
    obtain ⟨s', hs, hr⟩ := run_succ_cases h
    rw [Nat.succ_add, run_succ hs]
    exact ih hr

/-- What every step keeps, every run keeps. -/
theorem run_keeps {P : State → Prop} (hstep : ∀ s t, P s → step s = .next t → P t) {k : Nat} (hs : P s)
    (h : Sys2Proof.core.run k s = .next t) : P t := by
  induction k generalizing s with
  | zero => cases h; exact hs
  | succ k ih =>
    obtain ⟨s', h', hr⟩ := run_succ_cases h
    exact ih (hstep _ _ hs h') hr

@[simp] theorem stalledAnswers_nil : stalledAnswers [] = [] := rfl

@[simp] theorem stalledAnswers_cons (n : Nat) (a : TxAnswer) (rest : List (Nat × TxAnswer)) :
    stalledAnswers ((n, a) :: rest) = List.replicate n none ++ some a :: stalledAnswers rest := by
  simp [stalledAnswers]

@[simp] theorem stalledAnswers_append (l₁ l₂ : List (Nat × TxAnswer)) :
    stalledAnswers (l₁ ++ l₂) = stalledAnswers l₁ ++ stalledAnswers l₂ := by
  simp [stalledAnswers]

/-- A stall of n steps uses up n absences of an answer and n levels of RST, and changes nothing else (R125, R170). -/
theorem run_stall {ev : TxEvent} {A : List (Option TxAnswer)} (n : Nat) (hc : s.cfg.wellFormed = true)
    (hr : true ∉ s.rstIn) (htx : s.tx = some ev) (ha : s.txAns = List.replicate n none ++ A) :
    Sys2Proof.core.run n s = .next { s with rstIn := s.rstIn.drop n, txAns := A } := by
  induction n generalizing s with
  | zero =>
    cases s
    simp only [List.replicate_zero, List.nil_append] at ha
    subst ha
    rfl
  | succ n ih =>
    rw [List.replicate_succ, List.cons_append] at ha
    refine (run_succ (step_of_stall (A := List.replicate n none ++ A) hc (fun h => hr (List.mem_of_mem_head? h)) htx ha)
      n).trans ((ih (s := { s with rstIn := s.rstIn.tail, txAns := List.replicate n none ++ A }) hc
        (fun h => hr (List.mem_of_mem_tail h)) htx rfl).trans ?_)
    simp

end Sys2Proof.Machine
end

