-- ==== Sys2Proof/Tests/Slice0.lean ====
section
/-! SUPPORT. The model's own tests, their expected results taken from spec/, and for each obligation with hypotheses a named
witness that meets them. -/

namespace Sys2Proof.Tests

open Sys2Proof Sys2Proof.Machine

/-! ## Small states -/

/-- The test configurations of 95_test_vectors.md: T_EX, SERP(10), and the dimensions given. -/
def chain (mc mr : Nat) : Config := ⟨mc, mr, Config.testSegTable, .serpentine 10, true, 1000000, 0⟩

/-- An instance right after reset, with these words offered on CMD. -/
def fresh (mc mr : Nat) (words : List Word) : State :=
  { State.afterReset (chain mc mr) with cmdIn := words }

/-- A buffer with one defined byte. -/
def oneByte (o : Nat) (v : Byte) : Buffer := (Buffer.mk [] []).writeByte o v

/-- An UPDATE in flight in a 1 by 1 or larger chain: `ev` is offered, and the Transport's coming answers are `answers`. -/
def inFlight (mc mr : Nat) (ev : TxEvent) (ser : Ser) (answers : List (Option TxAnswer)) : State :=
  { State.afterReset (chain mc mr) with port := .busy, tx := some ev, ser := ser, txAns := answers }

/-- SER inside a frame: access owned, chip-select asserted. -/
def sending (plane slot : Nat) (half : Half) : Ser := ⟨.run, plane, slot, half, .asserted, true⟩

/-- A test of the state a step answers. -/
def answersNext (o : Host.Outcome State Fault Refusal) (p : State → Bool) : Bool :=
  match o with
  | .next t => p t
  | .fault _ => false
  | .refused _ => false

/-! ## WellFormed: each check refuses an ill-formed term -/

theorem test_wf_setdot_x : (Instr.setdot 4096 0 true).wellFormed = false := by decide
theorem test_wf_setdot_y : (Instr.setdot 0 4096 true).wellFormed = false := by decide
theorem test_wf_setbyte_c : (Instr.setbyte 1024 0 0#8).wellFormed = false := by decide
theorem test_wf_setbyte_r : (Instr.setbyte 0 1024 0#8).wellFormed = false := by decide
theorem test_wf_getbyte_c : (Instr.getbyte 1024 0).wellFormed = false := by decide
theorem test_wf_getbyte_r : (Instr.getbyte 0 1024).wellFormed = false := by decide

/-! ## Decoding: words laid out field by field from R60, and the table of 95_test_vectors.md 2.10 -/

/-- OP 0001, reserved 000, F 1, Y = 20, X = 9 (2.5). -/
theorem test_decode_setdot :
    decode (0b0001#4 ++ 0b000#3 ++ 1#1 ++ 0b000000010100#12 ++ 0b000000001001#12) = .instr (.setdot 9 20 true) := by decide
/-- OP 0010, V = 0x22, R = 1, C = 4 (P2 step 3). -/
theorem test_decode_setbyte :
    decode (0b0010#4 ++ 0b00100010#8 ++ 0b0000000001#10 ++ 0b0000000100#10) = .instr (.setbyte 4 1 0x22#8) := by decide
/-- OP 0011, reserved 00000000, R = 3, C = 5 (2.6). -/
theorem test_decode_getbyte :
    decode (0b0011#4 ++ 0b00000000#8 ++ 0b0000000011#10 ++ 0b0000000101#10) = .instr (.getbyte 5 3) := by decide
/-- OP 0100, 28 reserved zeros. -/
theorem test_decode_clear : decode (0b0100#4 ++ 0#28) = .instr .clear := by decide
/-- OP 0101, 20 reserved zeros, V = 0x80 (2.7). -/
theorem test_decode_fill : decode (0b0101#4 ++ 0#20 ++ 0b10000000#8) = .instr (.fill 0x80#8) := by decide
/-- OP 0110, 28 reserved zeros. -/
theorem test_decode_update : decode (0b0110#4 ++ 0#28) = .instr .update := by decide

/-- The illegal words of 2.10 and 2.7. -/
theorem test_decode_illegal :
    decode 0x00000000#32 = .illegal (.unassignedOp 0#4) ∧ decode 0x12000000#32 = .illegal (.reservedBits 1#4) ∧
    decode 0x1E000000#32 = .illegal (.reservedBits 1#4) ∧ decode 0x30100000#32 = .illegal (.reservedBits 3#4) ∧
    decode 0x40000001#32 = .illegal (.reservedBits 4#4) ∧ decode 0x50000100#32 = .illegal (.reservedBits 5#4) ∧
    decode 0x68000000#32 = .illegal (.reservedBits 6#4) ∧ decode 0x70000000#32 = .illegal (.unassignedOp 7#4) ∧
    decode 0xFFFFFFFF#32 = .illegal (.unassignedOp 15#4) := by decide

/-- The host's word interface: a table word decodes, an illegal one and a number past 32 bits do not. -/
theorem test_decodeTableWord :
    decodeTableWord 32 0x11007004 = some (.setdot 4 7 true) ∧ decodeTableWord 32 0x00000000 = none ∧
    decodeTableWord 40 0x160000000 = none := by decide

/-! ## The assembler (R68, R69; the words of P1 and P4) -/

theorem test_assemble_doton : assembleText ['D', 'O', 'T', 'O', 'N', ' ', '5', ',', ' ', '6'] = some 0x11006005#32 := by
  decide
theorem test_assemble_hex_comment :
    assembleText ['F', 'I', 'L', 'L', ' ', '0', 'x', 'A', '5', ' ', ';', ' ', 'a'] = some 0x500000A5#32 := by decide
theorem test_assemble_refuses : assemble (.fill 256) = none ∧ assemble (.setdot 0 0 2) = none := by decide

/-! ## Combinational parts (95_test_vectors.md 2.1 to 2.8) -/

theorem test_addr : addr (chain 2 2) 5 3 = 29 ∧ addr (chain 2 2) 7 1 = 15 ∧ addr (chain 3 2) 11 3 = 47 ∧
    addr (chain 3 2) 4 2 = 32 := by decide
theorem test_rowDiv6 : [0, 5, 6, 11, 83, 503, 514, 515, 521].map rowDiv6 = [0, 0, 1, 1, 13, 83, 85, 86, 87] := by decide
theorem test_segLookup : segLookup Config.testSegTable 17 = some 3 ∧ segLookup Config.testSegTable 23 = none ∧
    segLookup [⟨5, 2⟩, ⟨1, 0⟩, ⟨2, 1⟩, ⟨5, 6⟩] 5 = some 2 := by decide
theorem test_serpentine_25 : (List.range 25).map (serpentine 10 25) =
    [24, 23, 22, 21, 20, 19, 18, 17, 16, 15, 5, 6, 7, 8, 9, 10, 11, 12, 13, 14, 4, 3, 2, 1, 0] := by decide
theorem test_wireBits : wireBits 0x81#8 = [true, false, false, false, false, false, false, true] := by decide

/-! ## One step of each command (95_test_vectors.md 2.5 to 2.9, P2, P3) -/

/-- BUF[0] = 0x80, SETDOT 1, 0, 1: 0xC0 (2.5). -/
theorem test_setdot_sets_bit :
    answersNext (step { fresh 2 2 [0x11000001#32] with buf := oneByte 0 0x80#8 })
      (fun t => Memory.read t.buf.data 0 == 0xC0#8 && Memory.read t.buf.known 0 == 0xFF#8 && t.rspOut == [0x0000#16]) =
      true := by decide
/-- SETDOT 29, 22, 1 after reset: bit 3 of BUF[31], alone, is defined (2.5, R28). -/
theorem test_setdot_defines_one_bit :
    answersNext (step (fresh 2 2 [0x1101601D#32]))
      (fun t => t.buf.data == [(31, 0x08#8)] && t.buf.known == [(31, 0x08#8)]) = true := by decide
/-- SETBYTE 5, 3, 0xFF: BUF[29] = 0xFF (2.6). -/
theorem test_setbyte_writes :
    answersNext (step (fresh 2 2 [0x2FF00C05#32])) (fun t => t.buf == oneByte 29 0xFF#8 && t.rspOut == [0x0000#16]) =
      true := by decide
/-- SETBYTE 8, 0, 0x12: ERR_RANGE (2.6). -/
theorem test_setbyte_range :
    answersNext (step (fresh 2 2 [0x21200008#32])) (fun t => t.buf == ⟨[], []⟩ && t.rspOut == [0x0100#16]) = true := by
  decide
/-- GETBYTE 5, 3 after that SETBYTE: DATA 0xFF (2.6). -/
theorem test_getbyte_reads :
    answersNext (step { fresh 2 2 [0x30000C05#32] with buf := oneByte 29 0xFF#8 }) (fun t => t.rspOut == [0x00FF#16]) =
      true := by decide
/-- GETBYTE 0, 4: ERR_RANGE with DATA 0x00 (2.6). -/
theorem test_getbyte_range :
    answersNext (step (fresh 2 2 [0x30001000#32])) (fun t => t.rspOut == [0x0100#16]) = true := by decide
/-- CLEAR: every byte 0x00 and defined (2.7). -/
theorem test_clear :
    answersNext (step { fresh 1 1 [0x40000000#32] with buf := oneByte 3 0x55#8 })
      (fun t => t.buf.data == [] && t.buf.known == (List.range 8).map (fun o => (o, 0xFF#8))) = true := by decide
/-- FILL 0x80: every byte 0x80 (2.7). -/
theorem test_fill :
    answersNext (step (fresh 1 1 [0x50000080#32])) (fun t => t.buf.data == (List.range 8).map (fun o => (o, 0x80#8))) =
      true := by decide
/-- UPDATE with FATAL = 1: ERR_FATAL, no event (2.9). -/
theorem test_update_fatal :
    answersNext (step { fresh 2 2 [0x60000000#32] with fatal := true })
      (fun t => t.rspOut == [0x0400#16] && t.tx == none && t.port == .ready) = true := by decide
/-- Slot 0 of a chain of two is module 1: plane 4's first data byte is BUF[12] = 0x22 (P2). -/
theorem test_update_reorders :
    answersNext (step { inFlight 2 1 (.byte 0x05#8) (sending 4 0 .addr) [some .accept] with buf := oneByte 12 0x22#8 })
      (fun t => t.tx == some (.byte 0x22#8) && t.ser == sending 4 0 .data) = true := by decide
/-- A BYTE answered fail: CS_DEASSERT is offered, no further BYTE (P3). -/
theorem test_transport_fails_byte :
    answersNext (step (inFlight 1 1 (.byte 0xA5#8) (sending 1 0 .data) [some .fail]))
      (fun t => t.tx == some .csDeassert && t.rspOut == [] && t.cleanup) = true := by decide
/-- The first ACQUIRE answered fail: no further event, FATAL, ERR_TRANSPORT (2.9). -/
theorem test_transport_fails_acquire :
    answersNext (step (inFlight 1 1 .acquire ⟨.run, 0, 0, .addr, .deasserted, false⟩ [some .fail]))
      (fun t => t.tx == none && t.fatal && t.rspOut == [0x0300#16] && t.port == .ready) = true := by decide
/-- Decode first: with FATAL = 1 the word 0 answers ERR_ILLEGAL (2.10). -/
theorem test_illegal_before_fatal :
    answersNext (step { fresh 1 1 [0x00000000#32] with fatal := true }) (fun t => t.rspOut == [0x0200#16]) = true := by
  decide

/-- R9's three refusals: MR = 43, a table of 6 entries, N = 11 with SERP(10) (C2). -/
theorem test_ill_formed_refused :
    step (fresh 1 43 []) = .refused .illFormedDimensions ∧
    step { fresh 1 1 [] with cfg := { chain 1 1 with segTable := Config.testSegTable.tail } } = .refused .illFormedSegTable ∧
    step (fresh 11 1 []) = .refused .illFormedReorder := ⟨rfl, rfl, rfl⟩

/-- The host's fetch: the word placed by withFetchWord is the one the very next step runs. -/
theorem test_withFetchWord :
    answersNext (step (State.reset.withFetchWord 32 0x50000080)) (fun t => Memory.read t.buf.data 31 == 0x80#8) = true := by
  decide

/-! ## Safe states the witnesses use -/

theorem chain_1_1_wellFormed : (chain 1 1).wellFormed = true := by decide
theorem chain_2_2_wellFormed : (chain 2 2).wellFormed = true := by decide

theorem reset_inv : State.reset.Inv := ⟨by decide, by decide, ⟨rfl, rfl, rfl, rfl, rfl⟩⟩

/-- Safe states are not only ready ones: an address byte in flight. -/
def addressOffered : State := inFlight 2 1 (.byte 0x08#8) (sending 7 1 .addr) [some .accept]

theorem addressOffered_inv : addressOffered.Inv :=
  ⟨by decide, by decide, ⟨rfl, rfl, rfl, by decide, by decide, ⟨rfl, rfl, fun _ => rfl, nofun⟩⟩⟩

/-- Plane 0's RELEASE offered. -/
def releaseOffered : State := inFlight 1 1 .release ⟨.run, 0, 0, .data, .deasserted, true⟩ [some .accept]

theorem releaseOffered_inv : releaseOffered.Inv :=
  ⟨by decide, by decide, ⟨rfl, rfl, rfl, by decide, by decide, ⟨rfl, rfl⟩⟩⟩

/-- Cleanup after a failure, CS_DEASSERT offered. -/
def cleaningUp : State :=
  { inFlight 1 1 .csDeassert (sending 3 0 .data) [none] with cleanup := true }

theorem cleaningUp_inv : cleaningUp.Inv :=
  ⟨by decide, by decide, ⟨rfl, rfl, rfl, by decide, by decide, ⟨.inl rfl, rfl⟩⟩⟩

/-- A ready instance with one defined byte, a word and a level of RST waiting. -/
def loaded (w : Word) : State := { fresh 2 2 [w, 0x40000000#32] with buf := oneByte 31 0x5A#8, rstIn := [false, true] }

theorem loaded_inv (w : Word) : (loaded w).Inv :=
  ⟨chain_2_2_wellFormed, Buffer.writeByte_wf rfl (show 31 < (chain 2 2).bufLen by decide), ⟨rfl, rfl, rfl, rfl, rfl⟩⟩

theorem loaded_accepts (w : Word) : acceptsNext (loaded w) w [0x40000000#32] :=
  ⟨chain_2_2_wellFormed, rfl, rfl, nofun, rfl⟩

/-- The same with FATAL set. -/
def loadedFatal (w : Word) : State := { loaded w with fatal := true }

theorem loadedFatal_accepts (w : Word) : acceptsNext (loadedFatal w) w [0x40000000#32] :=
  ⟨chain_2_2_wellFormed, rfl, rfl, nofun, rfl⟩

/-- UPDATE waiting in a chain of one module, all its events to be accepted. -/
def updateWaiting (answers : List (Option TxAnswer)) : State :=
  { fresh 1 1 [0x60000000#32] with buf := oneByte 7 0x22#8, txAns := answers }

theorem updateWaiting_accepts (answers : List (Option TxAnswer)) : acceptsNext (updateWaiting answers) 0x60000000#32 [] :=
  ⟨chain_1_1_wellFormed, rfl, rfl, nofun, rfl⟩

/-! ## Witnesses: for each obligation with hypotheses, inputs that meet them all, clause by clause -/

theorem witness_DecodeOfEncode :
    (Instr.setdot 4095 4095 true).wellFormed = true ∧ (Instr.setbyte 1023 1023 0xFF#8).wellFormed = true ∧
    (Instr.getbyte 1023 1023).wellFormed = true := by decide

theorem witness_EncodeOfDecode :
    decode 0x11FFFFFF#32 = .instr (.setdot 4095 4095 true) ∧ decode 0x2FFFFFFF#32 = .instr (.setbyte 1023 1023 0xFF#8) ∧
    decode 0x300FFFFF#32 = .instr (.getbyte 1023 1023) ∧ decode 0x500000FF#32 = .instr (.fill 0xFF#8) := by decide

theorem witness_AtMostOneRowMatches :
    rowSetdot ∈ opcodeRows ∧ rowSetdot.selects 0x11FFFFFF#32 = true ∧ rowUpdate ∈ opcodeRows ∧
    rowUpdate.selects 0x60000000#32 = true := by decide

/-- Each clause, at the least and the greatest operand values. -/
theorem witness_OperandsAreZeroExtendedFields :
    decode 0x10000000#32 = .instr (.setdot 0 0 false) ∧ decode 0x11FFFFFF#32 = .instr (.setdot 4095 4095 true) ∧
    decode 0x20000000#32 = .instr (.setbyte 0 0 0x00#8) ∧ decode 0x2FFFFFFF#32 = .instr (.setbyte 1023 1023 0xFF#8) ∧
    decode 0x30000000#32 = .instr (.getbyte 0 0) ∧ decode 0x300FFFFF#32 = .instr (.getbyte 1023 1023) ∧
    decode 0x50000000#32 = .instr (.fill 0x00#8) ∧ decode 0x500000FF#32 = .instr (.fill 0xFF#8) := by decide

theorem witness_EncodingFormulas :
    (Instr.setdot 4095 4095 true).wellFormed = true ∧ (Instr.setbyte 1023 1023 0xFF#8).wellFormed = true ∧
    (Instr.getbyte 1023 1023).wellFormed = true := by decide

/-- Each clause at its boundary, and operands whose order shows. -/
theorem witness_AssemblerChecksOperands :
    assemble (.setdot 4095 4095 1) = some (.setdot 4095 4095 true) ∧ assemble (.setdot 4096 0 0) = none ∧
    assemble (.setbyte 1023 1023 255) = some (.setbyte 1023 1023 0xFF#8) ∧ assemble (.setbyte 0 1024 0) = none ∧
    assemble (.getbyte 1023 1023) = some (.getbyte 1023 1023) ∧ assemble (.getbyte 1024 0) = none ∧
    assemble (.fill 255) = some (.fill 0xFF#8) ∧ assemble (.fill 256) = none ∧
    assemble (.setdot 5 6 0) = some (.setdot 5 6 false) ∧ assemble (.setbyte 4 1 34) = some (.setbyte 4 1 0x22#8) := by
  decide

theorem witness_StepRunsTheDecodedCommand :
    acceptsNext (loaded 0x2FF00C05#32) 0x2FF00C05#32 [0x40000000#32] ∧
      decode 0x2FF00C05#32 = .instr (.setbyte 5 3 0xFF#8) :=
  ⟨loaded_accepts _, by decide⟩

/-- Every clause of the illegal words, with FATAL set. -/
theorem witness_IllegalWordAnswersErrIllegal :
    acceptsNext (loadedFatal 0x00000000#32) 0x00000000#32 [0x40000000#32] ∧ (0x00000000#32).toNat / 2 ^ 28 = 0 ∧
    7 ≤ (0x70000000#32).toNat / 2 ^ 28 ∧
    ((0x12000000#32).toNat / 2 ^ 28 = 1 ∧ (0x12000000#32).toNat / 2 ^ 25 % 2 ^ 3 ≠ 0) ∧
    ((0x30100000#32).toNat / 2 ^ 28 = 3 ∧ (0x30100000#32).toNat / 2 ^ 20 % 2 ^ 8 ≠ 0) ∧
    ((0x40000001#32).toNat / 2 ^ 28 = 4 ∧ (0x40000001#32).toNat % 2 ^ 28 ≠ 0) ∧
    ((0x68000000#32).toNat / 2 ^ 28 = 6 ∧ (0x68000000#32).toNat % 2 ^ 28 ≠ 0) ∧
    ((0x50000100#32).toNat / 2 ^ 28 = 5 ∧ (0x50000100#32).toNat / 2 ^ 8 % 2 ^ 20 ≠ 0) :=
  ⟨loadedFatal_accepts _, by decide, by decide, by decide, by decide, by decide, by decide, by decide⟩

/-- Both sides of R122's condition, at N = 10 and N = 11, with all the other parts of R9 met. -/
theorem witness_IllFormedConfigurationIsRefused :
    (chain 10 1).reorder = .serpentine 10 ∧ (chain 10 1).segTable.length = 7 ∧
    (∀ e ∈ (chain 10 1).segTable, e.key < 32 ∧ e.bit < 7) ∧ ¬ 10 < (chain 10 1).numModules % (2 * 10) ∧
    (chain 11 1).reorder = .serpentine 10 ∧ (chain 11 1).segTable.length = 7 ∧
    (∀ e ∈ (chain 11 1).segTable, e.key < 32 ∧ e.bit < 7) ∧ 10 < (chain 11 1).numModules % (2 * 10) ∧
    step (fresh 11 1 []) = .refused .illFormedReorder :=
  ⟨rfl, rfl, by decide, by decide, rfl, rfl, by decide, by decide, rfl⟩

/-- RST while an UPDATE is in flight. -/
theorem witness_ResetGivesTheResetValues :
    ({ addressOffered with rstIn := [true] } : State).cfg.wellFormed = true ∧
      ({ addressOffered with rstIn := [true] } : State).rstIn = true :: [] ∧ addressOffered.tx = some (.byte 0x08#8) :=
  ⟨by decide, rfl, rfl⟩

/-- A safe state in flight and a safe ready state, and their steps. -/
theorem witness_StepKeepsTheInvariant :
    (∃ t, addressOffered.Inv ∧ step addressOffered = .next t) ∧
    (∃ t, (loaded 0x60000000#32).Inv ∧ step (loaded 0x60000000#32) = .next t) ∧
    (∃ t, cleaningUp.Inv ∧ step cleaningUp = .next t) :=
  ⟨⟨_, addressOffered_inv, rfl⟩, ⟨_, loaded_inv _, rfl⟩, ⟨_, cleaningUp_inv, rfl⟩⟩

theorem witness_SafeStatesNeverStop : State.reset.Inv ∧ addressOffered.Inv ∧ releaseOffered.Inv ∧ cleaningUp.Inv :=
  ⟨reset_inv, addressOffered_inv, releaseOffered_inv, cleaningUp_inv⟩

theorem witness_NothingIsAcceptedWhileInFlight :
    ∃ t, addressOffered.Inv ∧ addressOffered.ser.phase = .run ∧ addressOffered.rstIn.head? ≠ some true ∧
      step addressOffered = .next t :=
  ⟨_, addressOffered_inv, rfl, by decide, rfl⟩

theorem witness_StallIsAHang :
    cleaningUp.Inv ∧ cleaningUp.tx = some .csDeassert ∧ (∀ a ∈ cleaningUp.txAns, a = none) ∧ true ∉ cleaningUp.rstIn :=
  ⟨cleaningUp_inv, rfl, by decide, by decide⟩

theorem witness_OneResponsePerCommand :
    ∃ t, (loaded 0x40000000#32).rstIn.head? ≠ some true ∧ step (loaded 0x40000000#32) = .next t ∧
      t.rspOut = [0x0000#16] :=
  ⟨_, by decide, rfl, rfl⟩

theorem witness_ResponsesAreLegal :
    ∃ t, step (loadedFatal 0x40000000#32) = .next t ∧ t.rspOut = [0x0400#16] := ⟨_, rfl, rfl⟩

/-- Each clause; the third by RST and without it. -/
theorem witness_FatalIsSticky :
    (loadedFatal 0x40000000#32).fatal = true ∧
    (acceptsNext (loadedFatal 0x70000000#32) 0x70000000#32 [0x40000000#32] ∧
      decode 0x70000000#32 = .illegal (.unassignedOp 7#4)) ∧
    (∃ t, step (loadedFatal 0x40000000#32) = .next t) ∧
    (∃ t, step { loadedFatal 0x40000000#32 with rstIn := [true] } = .next t) :=
  ⟨rfl, ⟨loadedFatal_accepts _, by decide⟩, ⟨_, rfl⟩, ⟨_, rfl⟩⟩

/-- FATAL set by a failed RELEASE and by the end of a cleanup; a cleanup begun by a failed BYTE. -/
theorem witness_OnlyTransportFailureSetsFatal :
    (∃ t, (inFlight 1 1 .release ⟨.run, 0, 0, .data, .deasserted, true⟩ [some .fail]).fatal = false ∧
      step (inFlight 1 1 .release ⟨.run, 0, 0, .data, .deasserted, true⟩ [some .fail]) = .next t ∧ t.fatal = true) ∧
    (∃ t, step { inFlight 1 1 .release (sending 3 0 .data) [some .accept] with cleanup := true } = .next t ∧
      t.fatal = true) ∧
    (∃ t, (inFlight 1 1 (.byte 0x04#8) (sending 3 0 .addr) [some .fail]).cleanup = false ∧
      step (inFlight 1 1 (.byte 0x04#8) (sending 3 0 .addr) [some .fail]) = .next t ∧ t.cleanup = true) :=
  ⟨⟨_, rfl, rfl, rfl⟩, ⟨_, rfl, rfl⟩, ⟨_, rfl, rfl, rfl⟩⟩

/-- Each clause: an illegal word, a legal one with FATAL, and SETBYTE at the first column and row out of the grid. -/
theorem witness_ErrorPriority :
    (acceptsNext (loadedFatal 0x00000000#32) 0x00000000#32 [0x40000000#32] ∧
      decode 0x00000000#32 = .illegal (.unassignedOp 0#4)) ∧
    (acceptsNext (loadedFatal 0x21200008#32) 0x21200008#32 [0x40000000#32] ∧
      decode 0x21200008#32 = .instr (.setbyte 8 0 0x12#8) ∧ (loadedFatal 0x21200008#32).fatal = true) ∧
    (acceptsNext (loaded 0x21200008#32) 0x21200008#32 [0x40000000#32] ∧ (loaded 0x21200008#32).fatal = false ∧
      ¬ (8 < (chain 2 2).digitCols ∧ 0 < (chain 2 2).digitRows)) ∧
    (acceptsNext (loaded 0x30001000#32) 0x30001000#32 [0x40000000#32] ∧ decode 0x30001000#32 = .instr (.getbyte 0 4) ∧
      ¬ (0 < (chain 2 2).digitCols ∧ 4 < (chain 2 2).digitRows)) ∧
    (∃ t, step (loaded 0x21200008#32) = .next t) :=
  ⟨⟨loadedFatal_accepts _, by decide⟩, ⟨loadedFatal_accepts _, by decide, rfl⟩, ⟨loaded_accepts _, rfl, by decide⟩,
    ⟨loaded_accepts _, by decide, by decide⟩, ⟨_, rfl⟩⟩

theorem witness_ConfigurationIsFixed :
    (∃ t, step (loaded 0x40000000#32) = .next t) ∧ (∃ t, step { addressOffered with rstIn := [true] } = .next t) :=
  ⟨⟨_, rfl⟩, ⟨_, rfl⟩⟩

/-- A byte defined before an overwriting CLEAR. -/
theorem witness_DefinedBitsStayDefined :
    ∃ t, (loaded 0x40000000#32).Inv ∧ (loaded 0x40000000#32).rstIn.head? ≠ some true ∧
      step (loaded 0x40000000#32) = .next t ∧ (Memory.read (loaded 0x40000000#32).buf.known 31).getLsbD 7 = true :=
  ⟨_, loaded_inv _, by decide, rfl, by decide⟩

/-- Each clause at the last digit and the last offset; the second with equal addresses. -/
theorem witness_AddrIsABijection :
    7 < (chain 2 2).digitCols ∧ 3 < (chain 2 2).digitRows ∧ addr (chain 2 2) 7 3 = addr (chain 2 2) 7 3 ∧
    31 < (chain 2 2).bufLen := by decide

theorem witness_AddrFormula :
    (chain 256 42).mc ≤ 256 ∧ (chain 256 42).mr ≤ 42 ∧ 1023 < (chain 256 42).digitCols ∧ 83 < (chain 256 42).digitRows := by
  decide

theorem witness_ModuleBankMap : 3 < (chain 2 2).numModules ∧ 7 < 8 := by decide

theorem witness_RowDividerIsDivisionBySix : 514 < 515 ∧ (chain 1 42).mr ≤ 42 ∧ 503 < (chain 1 42).pixelRows := by decide

theorem witness_LocalCoordinates :
    (chain 256 42).mr ≤ 42 ∧ 4095 < (chain 256 42).pixelCols ∧ 503 < (chain 256 42).pixelRows := by decide

theorem witness_CompositeCodeIsABijection :
    3 < 4 ∧ 5 < 6 ∧ compositeCode 3 5 = compositeCode 3 5 ∧ 23 < 24 := by decide

theorem witness_SegLookupIsFirstMatch :
    segLookup Config.testSegTable 1 = some 6 ∧ segLookup Config.testSegTable 24 = none ∧
    (chain 2 2).wellFormed = true ∧ 31 < (chain 2 2).pixelCols ∧ 23 < (chain 2 2).pixelRows := by decide

theorem witness_PixelTarget :
    (chain 2 2).mr ≤ 42 ∧ 31 < (chain 2 2).pixelCols ∧ 23 < (chain 2 2).pixelRows := by decide

/-- Both sides of the condition, G at its least value, and N = 0. -/
theorem witness_SerpentineBijectionCondition :
    1 ≤ 1 ∧ 20 % (2 * 10) ≤ 10 ∧ ¬ 15 % (2 * 10) ≤ 10 ∧ 0 % (2 * 1) ≤ 1 := by decide

/-- Each clause at the edges of groups 0 and 1. -/
theorem witness_SerpentineValues :
    1 ≤ 10 ∧ 0 / 10 % 2 = 0 ∧ 9 / 10 % 2 = 0 ∧ 10 / 10 % 2 = 1 ∧ 19 / 10 % 2 = 1 ∧ 10 ≤ 10 ∧ 9 < 10 := by decide

theorem witness_EachByteIsSentOnce :
    (chain 2 2).wellFormed = true ∧ 31 < (chain 2 2).bufLen ∧ 7 < 8 ∧ displayIndex (chain 2 2) 0 = some 3 ∧
    3 * 8 + 7 = 31 := by decide

/-- Each clause: FATAL; the first column and the first row out of the grid; the last digit. -/
theorem witness_SetbyteMeaning :
    (loadedFatal 0#32).fatal = true ∧
    ((loaded 0#32).fatal = false ∧ ¬ (8 < (loaded 0#32).cfg.digitCols ∧ 0 < (loaded 0#32).cfg.digitRows) ∧
      ¬ (0 < (loaded 0#32).cfg.digitCols ∧ 4 < (loaded 0#32).cfg.digitRows)) ∧
    (7 < (loaded 0#32).cfg.digitCols ∧ 3 < (loaded 0#32).cfg.digitRows ∧
      Buffer.wf (loaded 0#32).cfg.bufLen (loaded 0#32).buf = true) :=
  ⟨rfl, ⟨rfl, by decide, by decide⟩, by decide, by decide, (loaded_inv _).bufOk⟩

theorem witness_GetbyteMeaning :
    (loadedFatal 0#32).fatal = true ∧
    ((loaded 0#32).fatal = false ∧ ¬ (8 < (loaded 0#32).cfg.digitCols ∧ 0 < (loaded 0#32).cfg.digitRows) ∧
      ¬ (0 < (loaded 0#32).cfg.digitCols ∧ 4 < (loaded 0#32).cfg.digitRows)) ∧
    (7 < (loaded 0#32).cfg.digitCols ∧ 3 < (loaded 0#32).cfg.digitRows ∧
      Buffer.wf (loaded 0#32).cfg.bufLen (loaded 0#32).buf = true) :=
  ⟨rfl, ⟨rfl, by decide, by decide⟩, by decide, by decide, (loaded_inv _).bufOk⟩

/-- Each clause: FATAL; x = W and y = H; a miss at the last pixel; a hit at (29, 22), bit 3. -/
theorem witness_SetdotMeaning :
    (loaded 0#32).cfg.wellFormed = true ∧ (loadedFatal 0#32).fatal = true ∧ (loaded 0#32).fatal = false ∧
    ¬ (32 < (loaded 0#32).cfg.pixelCols ∧ 0 < (loaded 0#32).cfg.pixelRows) ∧
    ¬ (0 < (loaded 0#32).cfg.pixelCols ∧ 24 < (loaded 0#32).cfg.pixelRows) ∧
    segLookup (loaded 0#32).cfg.segTable (pixelCode 31 23) = none ∧
    (29 < (loaded 0#32).cfg.pixelCols ∧ 22 < (loaded 0#32).cfg.pixelRows ∧
      Buffer.wf (loaded 0#32).cfg.bufLen (loaded 0#32).buf = true ∧
      segLookup (loaded 0#32).cfg.segTable (pixelCode 29 22) = some 3) :=
  ⟨by decide, rfl, rfl, by decide, by decide, by decide, by decide, by decide, (loaded_inv _).bufOk, by decide⟩

theorem witness_ClearMeaning :
    (loadedFatal 0#32).fatal = true ∧ (loaded 0#32).fatal = false ∧
    Buffer.wf (loaded 0#32).cfg.bufLen (loaded 0#32).buf = true ∧ 31 < (loaded 0#32).cfg.bufLen ∧
    ¬ 32 < (loaded 0#32).cfg.bufLen :=
  ⟨rfl, rfl, (loaded_inv _).bufOk, by decide, by decide⟩

theorem witness_FillMeaning :
    (loadedFatal 0#32).fatal = true ∧ (loaded 0#32).fatal = false ∧
    Buffer.wf (loaded 0#32).cfg.bufLen (loaded 0#32).buf = true ∧ 31 < (loaded 0#32).cfg.bufLen ∧
    ¬ 32 < (loaded 0#32).cfg.bufLen :=
  ⟨rfl, rfl, (loaded_inv _).bufOk, by decide, by decide⟩

theorem witness_UpdateStarts : (loadedFatal 0x60000000#32).fatal = true ∧ (loaded 0x60000000#32).fatal = false := ⟨rfl, rfl⟩

/-- Each of the five commands answers a next state. -/
theorem witness_BufferCommandFrame :
    (∃ t, exec (.setdot 29 22 true) (loaded 0#32) = .next t) ∧ (∃ t, exec (.setbyte 7 3 0x01#8) (loaded 0#32) = .next t) ∧
    (∃ t, exec (.getbyte 7 3) (loaded 0#32) = .next t) ∧ (∃ t, exec .clear (loaded 0#32) = .next t) ∧
    (∃ t, exec (.fill 0xFF#8) (loaded 0#32) = .next t) :=
  ⟨⟨_, rfl⟩, ⟨_, rfl⟩, ⟨_, rfl⟩, ⟨_, rfl⟩, ⟨_, rfl⟩⟩

theorem witness_SetdotWritesAtMostOneBit :
    ∃ t, (loaded 0#32).cfg.wellFormed = true ∧ Buffer.wf (loaded 0#32).cfg.bufLen (loaded 0#32).buf = true ∧
      exec (.setdot 29 22 true) (loaded 0#32) = .next t :=
  ⟨_, by decide, (loaded_inv _).bufOk, rfl⟩

/-- The first clause at pixel (29, 22); the second at a miss and at x = W. -/
theorem witness_DotRoundTrip :
    (∃ t u, (loaded 0#32).Inv ∧ (loaded 0#32).fatal = false ∧ 29 < (loaded 0#32).cfg.pixelCols ∧
      22 < (loaded 0#32).cfg.pixelRows ∧ segLookup (loaded 0#32).cfg.segTable (pixelCode 29 22) = some 3 ∧
      exec (.setdot 29 22 true) (loaded 0#32) = .next t ∧ exec (.setdot 29 22 false) t = .next u) ∧
    (∃ t, segLookup (loaded 0#32).cfg.segTable (pixelCode 31 23) = none ∧
      exec (.setdot 31 23 true) (loaded 0#32) = .next t) ∧
    (∃ t, ¬ (32 < (loaded 0#32).cfg.pixelCols ∧ 0 < (loaded 0#32).cfg.pixelRows) ∧
      exec (.setdot 32 0 true) (loaded 0#32) = .next t) :=
  ⟨⟨_, _, loaded_inv _, rfl, by decide, by decide, by decide, rfl, rfl⟩, ⟨_, by decide, rfl⟩, ⟨_, by decide, rfl⟩⟩

theorem witness_SetbyteThenGetbyte :
    ∃ t, Buffer.wf (loaded 0#32).cfg.bufLen (loaded 0#32).buf = true ∧ (loaded 0#32).fatal = false ∧
      7 < (loaded 0#32).cfg.digitCols ∧ 3 < (loaded 0#32).cfg.digitRows ∧
      exec (.setbyte 7 3 0x99#8) (loaded 0#32) = .next t :=
  ⟨_, (loaded_inv _).bufOk, rfl, by decide, by decide, rfl⟩

theorem witness_ReadAfterClearAndFill :
    (∃ t, Buffer.wf (loaded 0#32).cfg.bufLen (loaded 0#32).buf = true ∧ (loaded 0#32).fatal = false ∧
      7 < (loaded 0#32).cfg.digitCols ∧ 3 < (loaded 0#32).cfg.digitRows ∧ exec .clear (loaded 0#32) = .next t) ∧
    (∃ t, exec (.fill 0x80#8) (loaded 0#32) = .next t) :=
  ⟨⟨_, (loaded_inv _).bufOk, rfl, by decide, by decide, rfl⟩, ⟨_, rfl⟩⟩

theorem witness_BufferCommandsCompleteInOneStep :
    (loaded 0x30000401#32).Inv ∧ acceptsNext (loaded 0x30000401#32) 0x30000401#32 [0x40000000#32] ∧
      decode 0x30000401#32 = .instr (.getbyte 1 1) ∧ Instr.getbyte 1 1 ≠ .update :=
  ⟨loaded_inv _, loaded_accepts _, by decide, by decide⟩

/-- Both ways an ACQUIRE comes to be offered. -/
theorem witness_NextFrameOpensAfterRelease :
    (∃ t, releaseOffered.Inv ∧ step releaseOffered = .next t ∧ releaseOffered.tx ≠ some .acquire ∧
      t.tx = some .acquire) ∧
    (∃ t, (loaded 0x60000000#32).Inv ∧ step (loaded 0x60000000#32) = .next t ∧
      (loaded 0x60000000#32).tx ≠ some .acquire ∧ t.tx = some .acquire) :=
  ⟨⟨_, releaseOffered_inv, rfl, by decide, rfl⟩, ⟨_, loaded_inv _, rfl, by decide, rfl⟩⟩

/-- CS_ASSERT of plane 0 offered: its acceptance offers the first address byte. -/
def csAssertOffered : State := inFlight 2 1 .csAssert ⟨.run, 0, 0, .addr, .deasserted, true⟩ [some .accept]

theorem csAssertOffered_inv : csAssertOffered.Inv :=
  ⟨by decide, by decide, ⟨rfl, rfl, rfl, by decide, by decide, ⟨rfl, rfl⟩⟩⟩

/-- Slot 0's data byte of plane 7 offered in a chain of two: its acceptance offers slot 1's address byte. -/
def dataOffered : State :=
  { inFlight 2 1 (.byte 0x22#8) (sending 7 0 .data) [some .accept] with buf := oneByte 15 0x22#8 }

theorem dataOffered_inv : dataOffered.Inv :=
  ⟨by decide, by decide, ⟨rfl, rfl, rfl, by decide, by decide,
    ⟨rfl, rfl, nofun, fun _ => ⟨1, by decide, 0#8, by decide⟩⟩⟩⟩

/-- The first plane and the last, whose digit registers are 1 and 8. -/
theorem witness_AddressBytesAreDigitRegisters :
    (∃ t, csAssertOffered.Inv ∧ step csAssertOffered = .next t ∧ t.tx = some (.byte 0x01#8) ∧ t.cleanup = false ∧
      t.ser.half = .addr ∧ t.ser.plane = 0) ∧
    (∃ t, dataOffered.Inv ∧ step dataOffered = .next t ∧ t.tx = some (.byte 0x08#8) ∧ t.cleanup = false ∧
      t.ser.half = .addr ∧ t.ser.plane = 7) :=
  ⟨⟨_, csAssertOffered_inv, rfl, rfl, rfl, rfl, rfl⟩, ⟨_, dataOffered_inv, rfl, rfl, rfl, rfl, rfl⟩⟩

/-- All 48 answers of an UPDATE in a chain of one module, the first and the last after a stall. -/
def acceptingAnswers : List (Nat × TxAnswer) := (3, .accept) :: List.replicate 46 (0, .accept) ++ [(1, .accept)]

theorem witness_UpdateEmitsEightFrames :
    acceptsNext (updateWaiting (stalledAnswers acceptingAnswers ++ [none])) 0x60000000#32 [] ∧
      decode 0x60000000#32 = .instr .update ∧
      (updateWaiting (stalledAnswers acceptingAnswers ++ [none])).fatal = false ∧
      true ∉ (updateWaiting (stalledAnswers acceptingAnswers ++ [none])).rstIn ∧
      acceptingAnswers.map Prod.snd =
        List.replicate (updateLength (updateWaiting (stalledAnswers acceptingAnswers ++ [none]))) .accept ∧
      (updateWaiting (stalledAnswers acceptingAnswers ++ [none])).txAns = stalledAnswers acceptingAnswers ++ [none] :=
  ⟨updateWaiting_accepts _, by decide, rfl, by simp [updateWaiting, fresh, State.afterReset], rfl, rfl⟩

/-- k events accepted, the next failed after a stall of two steps, and the cleanup's answers, each after a stall. -/
def failingAnswers (k : Nat) (cleanupAnswers : List TxAnswer) : List (Nat × TxAnswer) :=
  List.replicate k (0, .accept) ++ [(2, .fail)] ++ cleanupAnswers.map fun a => (1, a)

/-- The state of FailedUpdateCleansUp's witnesses. -/
def failing (k : Nat) (cleanupAnswers : List TxAnswer) : State :=
  updateWaiting (stalledAnswers (failingAnswers k cleanupAnswers) ++ [none])

/-- The hypotheses of FailedUpdateCleansUp on the k-th event, `ev`, and the answers to its cleanup. -/
def failureMeets (k : Nat) (ev : TxEvent) (cleanupAnswers : List TxAnswer) : Prop :=
  acceptsNext (failing k cleanupAnswers) 0x60000000#32 [] ∧ decode 0x60000000#32 = .instr .update ∧
    (failing k cleanupAnswers).fatal = false ∧ true ∉ (failing k cleanupAnswers).rstIn ∧
    (updateEvents (failing k cleanupAnswers))[k]? = some ev ∧ cleanupAnswers.length = (cleanupEvents ev).length ∧
    (failingAnswers k cleanupAnswers).map Prod.snd = List.replicate k .accept ++ [.fail] ++ cleanupAnswers ∧
    (failing k cleanupAnswers).txAns = stalledAnswers (failingAnswers k cleanupAnswers) ++ [none]

/-- Every kind of event: the first ACQUIRE, a CS_ASSERT, an address byte, a data byte, a CS_DEASSERT, the last RELEASE. -/
theorem witness_FailedUpdateCleansUp :
    failureMeets 0 .acquire [] ∧ failureMeets 1 .csAssert [.fail, .accept] ∧
      failureMeets 2 (.byte 0x01#8) [.accept, .accept] ∧ failureMeets 45 (.byte 0x22#8) [.fail, .fail] ∧
      failureMeets 46 .csDeassert [.accept] ∧ failureMeets 47 .release [] :=
  ⟨⟨updateWaiting_accepts _, by decide, rfl, nofun, rfl, rfl, rfl, rfl⟩,
    ⟨updateWaiting_accepts _, by decide, rfl, nofun, rfl, rfl, rfl, rfl⟩,
    ⟨updateWaiting_accepts _, by decide, rfl, nofun, rfl, rfl, rfl, rfl⟩,
    ⟨updateWaiting_accepts _, by decide, rfl, nofun, rfl, rfl, rfl, rfl⟩,
    ⟨updateWaiting_accepts _, by decide, rfl, nofun, rfl, rfl, rfl, rfl⟩,
    ⟨updateWaiting_accepts _, by decide, rfl, nofun, rfl, rfl, rfl, rfl⟩⟩

end Sys2Proof.Tests
end

/-! # Which instances are refused (spec/00_scope.md R9, spec/42_frame_serializer.md R120 to R122) -/

namespace Sys2Proof.Machine

/-! ## A turn refuses nothing: `step` refuses only on the configuration -/

section
variable {s : State} {r : Refusal}

theorem raise_ne_refused (e : Status) : raise e s ≠ .refused r := nofun

theorem execSetdot_ne_refused (x y : Nat) (f : Bool) : execSetdot x y f s ≠ .refused r := by
  unfold execSetdot
  split
  · exact raise_ne_refused _
  split
  · nofun
  split
  · nofun
  split <;> nofun

theorem execSetbyte_ne_refused (c d : Nat) (v : Byte) : execSetbyte c d v s ≠ .refused r := by
  unfold execSetbyte
  split
  · exact raise_ne_refused _
  split
  · exact raise_ne_refused _
  split <;> nofun

theorem execGetbyte_ne_refused (c d : Nat) : execGetbyte c d s ≠ .refused r := by
  unfold execGetbyte
  split
  · exact raise_ne_refused _
  split
  · exact raise_ne_refused _
  split <;> nofun

theorem execClear_ne_refused : execClear s ≠ .refused r := by
  unfold execClear
  split <;> nofun

theorem execFill_ne_refused (v : Byte) : execFill v s ≠ .refused r := by
  unfold execFill
  split <;> nofun

theorem execUpdate_ne_refused : execUpdate s ≠ .refused r := by
  unfold execUpdate
  split <;> nofun

theorem exec_ne_refused (i : Instr) : exec i s ≠ .refused r := by
  cases i with
  | setdot x y f => exact execSetdot_ne_refused x y f
  | setbyte c d v => exact execSetbyte_ne_refused c d v
  | getbyte c d => exact execGetbyte_ne_refused c d
  | clear => exact execClear_ne_refused
  | fill v => exact execFill_ne_refused v
  | update => exact execUpdate_ne_refused

theorem runWord_ne_refused (w : Word) : runWord w s ≠ .refused r := by
  unfold runWord
  split
  · exact exec_ne_refused _
  · exact raise_ne_refused _

theorem offerDataByte_ne_refused : offerDataByte s ≠ .refused r := by
  unfold offerDataByte
  split
  · nofun
  split <;> nofun

theorem eventAccepted_ne_refused (ev : TxEvent) : eventAccepted ev s ≠ .refused r := by
  cases ev with
  | acquire => nofun
  | csAssert => nofun
  | byte v =>
    simp only [eventAccepted]
    split
    · exact offerDataByte_ne_refused
    split <;> nofun
  | csDeassert => nofun
  | release =>
    simp only [eventAccepted]
    split <;> nofun

theorem eventAnswered_ne_refused (ev : TxEvent) (a : TxAnswer) : eventAnswered ev a s ≠ .refused r := by
  unfold eventAnswered
  split
  · nofun
  cases a with
  | accept => exact eventAccepted_ne_refused ev
  | fail => nofun

theorem transportTurn_ne_refused (ev : TxEvent) : transportTurn ev s ≠ .refused r := by
  unfold transportTurn
  split
  · nofun
  · nofun
  · exact eventAnswered_ne_refused ev _

theorem blockTurn_ne_refused : blockTurn s ≠ .refused r := by
  unfold blockTurn
  split
  · exact transportTurn_ne_refused _
  split
  · nofun
  split
  · nofun
  · exact runWord_ne_refused _

theorem machineTurn_ne_refused : machineTurn s ≠ .refused r := by
  unfold machineTurn
  split
  · nofun
  · exact blockTurn_ne_refused
  · exact blockTurn_ne_refused

/-- R9's check is the only source of a refusal. -/
theorem step_eq_refused_iff : step s = .refused r ↔ configProblem s.cfg = some r := by
  unfold step
  split
  · simp [*]
  · simp [*, machineTurn_ne_refused]

theorem exists_step_eq_refused_iff : (∃ r, step s = .refused r) ↔ ¬ s.cfg.wellFormed = true := by
  simp only [step_eq_refused_iff, ← configProblem_eq_none, ← ne_eq, Option.ne_none_iff_exists']

end

/-! ## REORDER as a bijection on [0, N) -/

/-- Every slot's REORDER value names a module of the chain. -/
def reorderInRange (cfg : Config) : Prop :=
  ∀ j < cfg.numModules, 0 ≤ reorderValue cfg j ∧ reorderValue cfg j < cfg.numModules

/-- No two slots have one REORDER value. -/
def reorderInjective (cfg : Config) : Prop :=
  ∀ j < cfg.numModules, ∀ k < cfg.numModules, reorderValue cfg j = reorderValue cfg k → j = k

theorem displayIndex_isSome_iff {cfg : Config} {j : Nat} :
    (displayIndex cfg j).isSome ↔ 0 ≤ reorderValue cfg j ∧ reorderValue cfg j < cfg.numModules := by
  simp [displayIndex]

/-- Two slots that both name a module name the same one exactly when REORDER gives them one value. -/
theorem displayIndex_inj {cfg : Config} {j k : Nat} (hj : (displayIndex cfg j).isSome) (hk : (displayIndex cfg k).isSome) :
    displayIndex cfg j = displayIndex cfg k ↔ reorderValue cfg j = reorderValue cfg k := by
  rw [displayIndex_isSome_iff] at hj hk
  simp only [displayIndex, hj, hk, and_self, if_true, Option.some.injEq]
  omega

theorem displayOrder_nodup_iff {cfg : Config} (h : ∀ j < cfg.numModules, (displayIndex cfg j).isSome) :
    (displayOrder cfg).Nodup ↔ reorderInjective cfg := by
  simp only [displayOrder, List.nodup_map_iff_inj_on List.nodup_range, List.mem_range, reorderInjective]
  have key {j k : Nat} (hj : j < cfg.numModules) (hk : k < cfg.numModules) := displayIndex_inj (h j hj) (h k hk)
  exact ⟨fun hd j hj k hk e => hd j hj k hk ((key hj hk).mpr e), fun hr j hj k hk e => hr j hj k hk ((key hj hk).mp e)⟩

theorem reorderOk_iff_bijective {cfg : Config} :
    reorderOk cfg = true ↔ policyOk cfg = true ∧ reorderInRange cfg ∧ reorderInjective cfg := by
  have hrange : (∀ j < cfg.numModules, (displayIndex cfg j).isSome) ↔ reorderInRange cfg := by
    simp only [displayIndex_isSome_iff, reorderInRange]
  rw [reorderOk_iff, ← hrange]
  exact and_congr_right fun _ => and_congr_right displayOrder_nodup_iff

/-! ## SERP(G) (R121, R122)

SERP(G)(j) = N - 1 - raw(j), where raw reverses every odd group of G slots in place. -/

/-- The place of slot j in the snake of groups of g: R121's `raw`. -/
def serpentineRaw (g j : Nat) : Nat := if j / g % 2 = 0 then j else j / g * g + (g - 1 - j % g)

theorem serpentine_eq_sub_raw {g : Nat} (n j : Nat) (hg : 1 ≤ g) :
    serpentine g n j = (n : Int) - 1 - serpentineRaw g j := by
  have hmod := Nat.mod_lt j hg
  unfold serpentine serpentineRaw
  simp only
  split
  · rfl
  · push_cast [show j % g ≤ g - 1 by omega, hg]
    rfl

theorem serpentineRaw_of_even {g j : Nat} (h : j / g % 2 = 0) : serpentineRaw g j = j := if_pos h

theorem serpentineRaw_of_odd {g j : Nat} (h : j / g % 2 = 1) : serpentineRaw g j = j / g * g + (g - 1 - j % g) :=
  if_neg (by omega)

theorem serpentineRaw_div {g : Nat} (j : Nat) (hg : 1 ≤ g) : serpentineRaw g j / g = j / g := by
  obtain h | h := Nat.mod_two_eq_zero_or_one (j / g)
  · rw [serpentineRaw_of_even h]
  · rw [serpentineRaw_of_odd h, Nat.mul_comm, Nat.mul_add_div hg, Nat.div_eq_of_lt (show g - 1 - j % g < g by omega),
      Nat.add_zero]

/-- Reversing the odd groups twice changes nothing. -/
theorem serpentineRaw_involutive {g : Nat} (hg : 1 ≤ g) : Function.Involutive (serpentineRaw g) := by
  intro j
  have hdiv := serpentineRaw_div j hg
  obtain h | h := Nat.mod_two_eq_zero_or_one (j / g)
  · rw [serpentineRaw_of_even h, serpentineRaw_of_even h]
  · have hmod : serpentineRaw g j % g = g - 1 - j % g := by
      rw [serpentineRaw_of_odd h, Nat.mul_comm, Nat.mul_add_mod, Nat.mod_eq_of_lt (by omega)]
    have hlt := Nat.mod_lt j hg
    have hj := Nat.div_add_mod' j g
    rw [serpentineRaw_of_odd (hdiv ▸ h), hdiv, hmod]
    omega

/-- SERP(G) never gives two slots one value: only its range depends on N. -/
theorem serpentine_injective {g : Nat} (n : Nat) (hg : 1 ≤ g) : Function.Injective (serpentine g n) := by
  intro j k h
  rw [serpentine_eq_sub_raw n j hg, serpentine_eq_sub_raw n k hg] at h
  exact (serpentineRaw_involutive hg).injective (by omega)

theorem serpentine_inRange_iff {g : Nat} (n j : Nat) (hg : 1 ≤ g) :
    (0 ≤ serpentine g n j ∧ serpentine g n j < n) ↔ serpentineRaw g j < n := by
  rw [serpentine_eq_sub_raw n j hg]
  omega

/-- Under R122's condition every odd group is whole, so that its reversal stays below N. -/
theorem serpentineRaw_lt {g n j : Nat} (hn : n % (2 * g) ≤ g) (hj : j < n) : serpentineRaw g j < n := by
  obtain h | h := Nat.mod_two_eq_zero_or_one (j / g)
  · rwa [serpentineRaw_of_even h]
  · have hg : 0 < g := Nat.pos_of_ne_zero fun h0 => by simp [h0] at h
    have hN := Nat.div_add_mod n (2 * g)
    have hjdiv : j / g * g ≤ j := Nat.div_mul_le_self j g
    have hgroup : j / g < 2 * (n / (2 * g)) + 1 := by
      refine Nat.lt_of_mul_lt_mul_right (?_ : j / g * g < (2 * (n / (2 * g)) + 1) * g)
      calc j / g * g < n := by omega
        _ ≤ 2 * g * (n / (2 * g)) + g := by omega
        _ = (2 * (n / (2 * g)) + 1) * g := by ring
    have hend : (j / g + 1) * g ≤ n := calc
      (j / g + 1) * g ≤ 2 * (n / (2 * g)) * g := Nat.mul_le_mul_right g (by omega)
      _ = 2 * g * (n / (2 * g)) := by ring
      _ ≤ n := by omega
    rw [serpentineRaw_of_odd h]
    rw [Nat.add_one_mul] at hend
    omega

/-- Where the last group is odd and not whole, its first slot is sent past the end of the chain. -/
theorem exists_le_serpentineRaw {g n : Nat} (hg : 1 ≤ g) (hn : g < n % (2 * g)) : ∃ j < n, n ≤ serpentineRaw g j := by
  have hN := Nat.div_add_mod n (2 * g)
  have hlast := Nat.mod_lt n (show 0 < 2 * g by omega)
  have hfirst : (2 * (n / (2 * g)) + 1) * g = 2 * g * (n / (2 * g)) + g := by ring
  have hdiv : (2 * (n / (2 * g)) + 1) * g / g = 2 * (n / (2 * g)) + 1 := Nat.mul_div_cancel _ hg
  have hodd : (2 * (n / (2 * g)) + 1) * g / g % 2 = 1 := by omega
  have hraw := serpentineRaw_of_odd hodd
  rw [hdiv, Nat.mul_mod_left] at hraw
  exact ⟨(2 * (n / (2 * g)) + 1) * g, by omega, by omega⟩

/-- R122's condition is that no slot's value leaves [0, N). -/
theorem serpentine_inRange_forall_iff {g : Nat} (n : Nat) (hg : 1 ≤ g) :
    (∀ j < n, 0 ≤ serpentine g n j ∧ serpentine g n j < n) ↔ n % (2 * g) ≤ g := by
  simp only [serpentine_inRange_iff n _ hg]
  refine ⟨fun h => ?_, fun hn j hj => serpentineRaw_lt hn hj⟩
  by_contra hn
  obtain ⟨j, hj, hle⟩ := exists_le_serpentineRaw hg (Nat.lt_of_not_le hn)
  exact Nat.not_lt_of_le hle (h j hj)

theorem reorderOk_serpentine_iff {cfg : Config} {g : Nat} (hg : 1 ≤ g) (hp : cfg.reorder = .serpentine g) :
    reorderOk cfg = true ↔ cfg.numModules % (2 * g) ≤ g := by
  have hvalue : reorderValue cfg = serpentine g cfg.numModules := funext fun j => by simp [reorderValue, hp]
  have hpolicy : policyOk cfg = true := by simp [policyOk, hp, hg]
  have hinj : reorderInjective cfg := fun j _ k _ h => serpentine_injective cfg.numModules hg (by rwa [hvalue] at h)
  have hrange : reorderInRange cfg ↔ cfg.numModules % (2 * g) ≤ g := by
    rw [reorderInRange, hvalue, serpentine_inRange_forall_iff cfg.numModules hg]
  simp [reorderOk_iff_bijective, hpolicy, hinj, hrange]

/-- Settles O11: a turn never refuses, so a step refuses exactly on R9's check, whose third part is REORDER's bijection
(R120) and, for SERP(G), R122's condition. -/
theorem illFormedConfigurationIsRefused : Obligations.IllFormedConfigurationIsRefused := by
  intro s
  refine ⟨?_, fun g hg hp hdim hseg => ?_⟩
  · rw [exists_step_eq_refused_iff, wellFormed_iff, dimensionsOk_iff, segTableOk_iff, reorderOk_iff_bijective]
    rfl
  · rw [exists_step_eq_refused_iff, wellFormed_iff, dimensionsOk_iff, segTableOk_iff, reorderOk_serpentine_iff hg hp,
      and_iff_right hdim, and_iff_right hseg, Nat.not_le]

end Sys2Proof.Machine

/-! # What a step keeps: the invariant, the configuration, definedness and FATAL (spec/10_state.md R23 to R33) -/

namespace Sys2Proof.Machine

section
variable {s t : State}

/-! ## What a step can do, by the sources of its turn -/

/-- Every way a step can answer a next state: RST, the Transport's turn, nothing to do, or a word accepted. -/
theorem step_turn_cases (h : step s = .next t) :
    (∃ rest, s.rstIn = true :: rest ∧ t = { s with rstIn := rest }.resetBlock) ∨
    (∃ ev, s.tx = some ev ∧ transportTurn ev { s with rstIn := s.rstIn.tail } = .next t) ∨
    (s.tx = none ∧ t = { s with rstIn := s.rstIn.tail }) ∨
    (s.tx = none ∧ ∃ w rest, s.cmdIn = w :: rest ∧ runWord w (afterAccept s rest) = .next t) := by
  rcases machineTurn_cases (step_cases h).2 with hrst | ⟨-, hblock⟩
  · exact .inl hrst
  · rcases blockTurn_cases hblock with hturn | ⟨htx, -, rfl⟩ | ⟨htx, -, hword⟩
    · exact .inr (.inl hturn)
    · exact .inr (.inr (.inl ⟨htx, rfl⟩))
    · exact .inr (.inr (.inr ⟨htx, hword⟩))

/-- A step of the ready block runs its next word, in the state its acceptance leaves (R32). -/
theorem step_of_acceptsNext {w : Word} {rest : List Word} (h : acceptsNext s w rest) :
    step s = runWord w (afterAccept s rest) := by
  obtain ⟨hcfg, htx, hport, hrst, hcmd⟩ := h
  rw [step_eq_blockTurn hcfg hrst]
  simp only [blockTurn, htx, hport, hcmd, afterAccept]

theorem runWord_of_decode {w : Word} {i : Instr} (h : decode w = .instr i) : runWord w s = exec i s := by
  simp only [runWord, h]

theorem step_of_rst {rest : List Bool} (hc : s.cfg.wellFormed = true) (hr : s.rstIn = true :: rest) :
    step s = .next { s with rstIn := rest }.resetBlock := by
  rw [step_of_wellFormed hc]
  simp only [machineTurn, hr]

/-- A word accepted is answered in its own step, or starts an UPDATE. -/
theorem runWord_answers_or_starts {w : Word} (h : runWord w s = .next t) :
    (∃ b n st d, (Buffer.wf s.cfg.bufLen s.buf = true → Buffer.wf s.cfg.bufLen b = true) ∧
      t = { s with buf := b, draws := n }.respond st d) ∨
    (s.fatal = false ∧ t = updateStarted s) := by
  rcases runWord_cases h with ⟨i, -, hexec⟩ | ⟨why, -, rfl⟩
  · rcases exec_cases hexec with ⟨st, rfl⟩ | ⟨c, r, -, -, rfl⟩ | ⟨b, -, -, hb, rfl⟩ | ⟨-, hf, rfl⟩
    · exact .inl ⟨s.buf, s.draws, st, _, id, rfl⟩
    · exact .inl ⟨s.buf, s.draws + 1, .ok, _, id, rfl⟩
    · exact .inl ⟨b, s.draws, .ok, _, hb, rfl⟩
    · exact .inr ⟨hf, rfl⟩
  · exact .inl ⟨s.buf, s.draws, .errIllegal, _, id, rfl⟩

/-! ## What the Transport's answers leave as it was -/

/-- The transfer went on with the configuration, the buffer and the words waiting as they were. -/
def transferFrame (s t : State) : Prop := t.cfg = s.cfg ∧ t.buf = s.buf ∧ t.cmdIn = s.cmdIn

theorem finishFail_frame (s : State) : transferFrame s s.finishFail := ⟨rfl, rfl, rfl⟩

/-- An accepted event also leaves FATAL and the cleanup flag. -/
theorem eventAccepted_frame {ev : TxEvent} (h : eventAccepted ev s = .next t) :
    transferFrame s t ∧ t.fatal = s.fatal ∧ t.cleanup = s.cleanup := by
  rcases eventAccepted_cases h with ⟨-, rfl⟩ | ⟨-, rfl⟩ | ⟨_, -, -, _, -, -, rfl⟩ | ⟨_, -, -, -, rfl⟩ | ⟨_, -, -, -, rfl⟩ |
    ⟨-, rfl⟩ | ⟨-, -, rfl⟩ | ⟨-, -, rfl⟩ <;> exact ⟨⟨rfl, rfl, rfl⟩, rfl, rfl⟩

theorem txFail_frame (ev : TxEvent) (s : State) : transferFrame s (txFail ev s) := by
  rcases txFail_cases ev s with ⟨-, heq⟩ | ⟨-, heq⟩ | ⟨-, heq⟩ <;> rw [heq]
  · exact finishFail_frame s
  · exact ⟨rfl, rfl, rfl⟩
  · exact ⟨rfl, rfl, rfl⟩

theorem cleanupAnswered_frame (ev : TxEvent) (s : State) : transferFrame s (cleanupAnswered ev s) := by
  rcases cleanupAnswered_cases ev s with ⟨-, heq⟩ | ⟨-, heq⟩ <;> rw [heq]
  · exact ⟨rfl, rfl, rfl⟩
  · exact finishFail_frame s

theorem eventAnswered_frame {ev : TxEvent} {a : TxAnswer} (h : eventAnswered ev a s = .next t) : transferFrame s t := by
  rcases eventAnswered_cases h with ⟨-, rfl⟩ | ⟨-, -, hacc⟩ | ⟨-, -, rfl⟩
  · exact cleanupAnswered_frame ev s
  · exact (eventAccepted_frame hacc).1
  · exact txFail_frame ev s

theorem transportTurn_frame {ev : TxEvent} (h : transportTurn ev s = .next t) : transferFrame s t := by
  rcases transportTurn_cases h with ⟨-, rfl⟩ | ⟨rest, -, rfl⟩ | ⟨a, rest, -, hans⟩
  · exact ⟨rfl, rfl, rfl⟩
  · exact ⟨rfl, rfl, rfl⟩
  · exact (eventAnswered_frame hans :)

/-! ## The invariant, by what is offered on TX -/

/-- What every state with an event offered has in common, in cleanup or not: the parts of the invariant that name no event. -/
def updateInFlight (s : State) : Prop :=
  s.cfg.wellFormed = true ∧ Buffer.wf s.cfg.bufLen s.buf = true ∧ s.port = .busy ∧ s.ser.phase = .run ∧
    s.fatal = false ∧ s.ser.plane < 8 ∧ s.ser.slot < s.cfg.numModules

theorem inv_iff_quiet (htx : s.tx = none) :
    s.Inv ↔ s.cfg.wellFormed = true ∧ Buffer.wf s.cfg.bufLen s.buf = true ∧ quiet s := by
  have htransfer : transferConsistent s ↔ quiet s := by
    simp only [transferConsistent, quiet, htx]
    tauto
  rw [← htransfer]
  exact ⟨fun h => ⟨h.cfgOk, h.bufOk, h.transfer⟩, fun ⟨hcfg, hbuf, htr⟩ => ⟨hcfg, hbuf, htr⟩⟩

theorem inv_iff_of_offered {ev : TxEvent} (htx : s.tx = some ev) :
    s.Inv ↔ updateInFlight s ∧ if s.cleanup then cleanupConsistent s ev else runningConsistent s ev := by
  have htransfer : transferConsistent s ↔ s.port = .busy ∧ s.ser.phase = .run ∧ s.fatal = false ∧ s.ser.plane < 8 ∧
      s.ser.slot < s.cfg.numModules ∧ if s.cleanup then cleanupConsistent s ev else runningConsistent s ev := by
    simp only [transferConsistent, htx]
  constructor
  · rintro ⟨hcfg, hbuf, htr⟩
    obtain ⟨hport, hphase, hfatal, hplane, hslot, hev⟩ := htransfer.mp htr
    exact ⟨⟨hcfg, hbuf, hport, hphase, hfatal, hplane, hslot⟩, hev⟩
  · rintro ⟨⟨hcfg, hbuf, hport, hphase, hfatal, hplane, hslot⟩, hev⟩
    exact ⟨hcfg, hbuf, htransfer.mpr ⟨hport, hphase, hfatal, hplane, hslot, hev⟩⟩

theorem inv_iff_running {ev : TxEvent} (htx : s.tx = some ev) (hc : s.cleanup = false) :
    s.Inv ↔ updateInFlight s ∧ runningConsistent s ev := by
  simp [inv_iff_of_offered htx, hc]

theorem inv_iff_cleanup {ev : TxEvent} (htx : s.tx = some ev) (hc : s.cleanup = true) :
    s.Inv ↔ updateInFlight s ∧ cleanupConsistent s ev := by
  simp [inv_iff_of_offered htx, hc]

theorem State.Inv.of_quiet (hcfg : s.cfg.wellFormed = true) (hbuf : Buffer.wf s.cfg.bufLen s.buf = true)
    (hquiet : quiet s) : s.Inv :=
  have ⟨_, htx, _⟩ := hquiet
  (inv_iff_quiet htx).mpr ⟨hcfg, hbuf, hquiet⟩

theorem State.Inv.of_running {ev : TxEvent} (htx : s.tx = some ev) (hc : s.cleanup = false) (hflight : updateInFlight s)
    (hev : runningConsistent s ev) : s.Inv :=
  (inv_iff_running htx hc).mpr ⟨hflight, hev⟩

theorem State.Inv.of_cleanup {ev : TxEvent} (htx : s.tx = some ev) (hc : s.cleanup = true) (hflight : updateInFlight s)
    (hev : cleanupConsistent s ev) : s.Inv :=
  (inv_iff_cleanup htx hc).mpr ⟨hflight, hev⟩

theorem State.Inv.in_flight_of_offered {ev : TxEvent} (hs : s.Inv) (htx : s.tx = some ev) : updateInFlight s :=
  ((inv_iff_of_offered htx).mp hs).1

theorem State.Inv.quiet_of_no_event (hs : s.Inv) (htx : s.tx = none) : quiet s :=
  ((inv_iff_quiet htx).mp hs).2.2

/-- What the outside world offers and what has been exchanged is no part of the invariant. -/
theorem State.Inv.of_ports (hs : s.Inv) (cmd : List Word) (ans : List (Option TxAnswer)) (rst : List Bool)
    (out : List TxRecord) :
    { s with cmdIn := cmd, txAns := ans, rstIn := rst, txOut := out }.Inv :=
  ⟨hs.cfgOk, hs.bufOk, hs.transfer⟩

/-! ## Every turn keeps the invariant -/

theorem afterReset_inv {c : Config} (hc : c.wellFormed = true) : (State.afterReset c).Inv :=
  .of_quiet hc (Buffer.empty_wf _) ⟨rfl, rfl, rfl, rfl, rfl, rfl⟩

theorem resetBlock_quiet (s : State) : quiet s.resetBlock := ⟨rfl, rfl, rfl, rfl, rfl, rfl⟩

theorem resetBlock_inv (hc : s.cfg.wellFormed = true) : s.resetBlock.Inv :=
  .of_quiet hc (Buffer.empty_wf _) (resetBlock_quiet s)

theorem finishFail_inv (hcfg : s.cfg.wellFormed = true) (hbuf : Buffer.wf s.cfg.bufLen s.buf = true) : s.finishFail.Inv :=
  .of_quiet hcfg hbuf ⟨rfl, rfl, rfl, rfl, rfl, rfl⟩

/-- A word accepted in a safe ready state: the answer leaves it ready, an UPDATE begins at plane 0, slot 0. -/
theorem runWord_inv {w : Word} (hs : s.Inv) (htx : s.tx = none) (h : runWord w s = .next t) : t.Inv := by
  obtain ⟨hcfg, hbuf, hport, -, hclean, hphase, hcs, howned⟩ := (inv_iff_quiet htx).mp hs
  rcases runWord_answers_or_starts h with ⟨b, n, st, d, hb, rfl⟩ | ⟨hf, rfl⟩
  · exact .of_quiet hcfg (hb hbuf) ⟨rfl, htx, hclean, hphase, hcs, howned⟩
  · exact .of_running rfl rfl ⟨hcfg, hbuf, rfl, rfl, hf, Nat.zero_lt_succ 7, numModules_pos hcfg⟩ ⟨howned, hcs⟩

/-- UPDATE goes on to an event consistent with SER (R124, R127). -/
theorem eventAccepted_inv {ev : TxEvent} (hs : s.Inv) (htx : s.tx = some ev) (hc : s.cleanup = false)
    (h : eventAccepted ev s = .next t) : t.Inv := by
  obtain ⟨hflight, hev⟩ := (inv_iff_running htx hc).mp hs
  have ⟨hcfg, hbuf, hport, hphase, hfatal, hplane, _⟩ := hflight
  rcases eventAccepted_cases h with ⟨rfl, rfl⟩ | ⟨rfl, rfl⟩ | ⟨v, rfl, -, d, hd, -, rfl⟩ | ⟨v, rfl, -, hnext, rfl⟩ |
    ⟨v, rfl, -, -, rfl⟩ | ⟨rfl, rfl⟩ | ⟨rfl, hnext, rfl⟩ | ⟨rfl, -, rfl⟩
  · -- ACQUIRE accepted: access is owned, CS_ASSERT offered
    obtain ⟨-, hcs⟩ := hev
    exact .of_running rfl hc hflight ⟨rfl, hcs⟩
  · -- CS_ASSERT accepted: slot 0's address byte offered
    obtain ⟨howned, -⟩ := hev
    exact .of_running rfl hc ⟨hcfg, hbuf, hport, hphase, hfatal, hplane, numModules_pos hcfg⟩
      ⟨howned, rfl, fun _ => rfl, nofun⟩
  · -- address byte accepted: the slot's data byte offered
    obtain ⟨howned, hcs, -, -⟩ := hev
    exact .of_running rfl hc hflight ⟨howned, hcs, nofun, fun _ => ⟨d, hd, _, rfl⟩⟩
  · -- data byte accepted, not the last slot: the next slot's address byte offered
    obtain ⟨howned, hcs, -, -⟩ := hev
    exact .of_running rfl hc ⟨hcfg, hbuf, hport, hphase, hfatal, hplane, hnext⟩
      ⟨howned, hcs, fun _ => rfl, nofun⟩
  · -- data byte of the last slot accepted: CS_DEASSERT offered
    obtain ⟨howned, hcs, -, -⟩ := hev
    exact .of_running rfl hc hflight ⟨howned, hcs⟩
  · -- CS_DEASSERT accepted: RELEASE offered
    obtain ⟨howned, -⟩ := hev
    exact .of_running rfl hc hflight ⟨howned, rfl⟩
  · -- RELEASE accepted, not the last plane: the next plane's ACQUIRE offered
    obtain ⟨-, hcs⟩ := hev
    exact .of_running rfl hc ⟨hcfg, hbuf, hport, hphase, hfatal, hnext, numModules_pos hcfg⟩
      ⟨rfl, hcs⟩
  · -- RELEASE of the last plane accepted: the UPDATE ends
    obtain ⟨-, hcs⟩ := hev
    exact .of_quiet hcfg hbuf ⟨rfl, rfl, hc, rfl, hcs, rfl⟩

/-- Only ACQUIRE is offered without access owned (R124). -/
theorem owned_of_runningConsistent {ev : TxEvent} (hev : runningConsistent s ev) (hne : ev ≠ .acquire) :
    s.ser.owned = true := by
  cases ev with
  | acquire => exact absurd rfl hne
  | csAssert => exact hev.1
  | byte v => exact hev.1
  | csDeassert => exact hev.1
  | release => exact hev.1

/-- A failed event ends the command, or begins a cleanup with access owned (R126). -/
theorem txFail_inv {ev : TxEvent} (hs : s.Inv) (htx : s.tx = some ev) (hc : s.cleanup = false) : (txFail ev s).Inv := by
  obtain ⟨hflight, hev⟩ := (inv_iff_running htx hc).mp hs
  have howned := owned_of_runningConsistent hev
  rcases txFail_cases ev s with ⟨-, heq⟩ | ⟨hkind, heq⟩ | ⟨hkind, heq⟩ <;> rw [heq]
  · exact finishFail_inv hs.cfgOk hs.bufOk
  · exact .of_cleanup rfl rfl hflight ⟨.inl rfl, howned (by rintro rfl; simp at hkind)⟩
  · exact .of_cleanup rfl rfl hflight ⟨.inr rfl, howned (by simp [hkind])⟩

theorem cleanupAnswered_inv {ev : TxEvent} (hs : s.Inv) (htx : s.tx = some ev) (hc : s.cleanup = true) :
    (cleanupAnswered ev s).Inv := by
  obtain ⟨hflight, -, howned⟩ := (inv_iff_cleanup htx hc).mp hs
  rcases cleanupAnswered_cases ev s with ⟨-, heq⟩ | ⟨-, heq⟩ <;> rw [heq]
  · exact .of_cleanup rfl hc hflight ⟨.inr rfl, howned⟩
  · exact finishFail_inv hs.cfgOk hs.bufOk

theorem eventAnswered_inv {ev : TxEvent} {a : TxAnswer} (hs : s.Inv) (htx : s.tx = some ev)
    (h : eventAnswered ev a s = .next t) : t.Inv := by
  rcases eventAnswered_cases h with ⟨hc, rfl⟩ | ⟨hc, -, hacc⟩ | ⟨hc, -, rfl⟩
  · exact cleanupAnswered_inv hs htx hc
  · exact eventAccepted_inv hs htx hc hacc
  · exact txFail_inv hs htx hc

theorem transportTurn_inv {ev : TxEvent} (hs : s.Inv) (htx : s.tx = some ev) (h : transportTurn ev s = .next t) : t.Inv := by
  rcases transportTurn_cases h with ⟨-, rfl⟩ | ⟨rest, -, rfl⟩ | ⟨a, rest, -, hans⟩
  · exact hs
  · exact hs.of_ports _ _ _ _
  · exact eventAnswered_inv (hs.of_ports s.cmdIn rest s.rstIn _) htx hans

/-! ## Definedness -/

/-- Every bit defined in b is defined in b' (R27). -/
def Buffer.keepsDefined (b b' : Buffer) : Prop :=
  ∀ o k, (Memory.read b.known o).getLsbD k = true → (Memory.read b'.known o).getLsbD k = true

theorem Buffer.keepsDefined_refl (b : Buffer) : b.keepsDefined b := fun _ _ h => h

/-- 0xFF, the marks of a wholly written byte, has every bit that any byte has. -/
theorem getLsbD_allDefined {v : Byte} {k : Nat} (h : v.getLsbD k = true) : (0xFF#8).getLsbD k = true := by
  have hk : k < 8 := BitVec.lt_of_getLsbD h
  have hall : (BitVec.allOnes 8).getLsbD k = true := by rw [BitVec.getLsbD_allOnes]; exact decide_eq_true hk
  exact hall

theorem Buffer.keepsDefined_writeByte {len : Nat} {b : Buffer} (hb : Buffer.wf len b = true) (o : Nat) (v : Byte) :
    b.keepsDefined (b.writeByte o v) := by
  intro a k hk
  by_cases ha : a = o
  · rw [ha, (Buffer.read_writeByte_same hb).2]
    exact getLsbD_allDefined hk
  · rwa [Buffer.read_known_writeByte ha]

theorem Buffer.keepsDefined_writeBit {len : Nat} {b : Buffer} (hb : Buffer.wf len b = true) (o n : Nat) (v : Bool) :
    b.keepsDefined (b.writeBit o n v) := by
  intro a k hk
  by_cases ha : a = o
  · subst ha
    rw [(Buffer.getLsbD_writeBit hb (BitVec.lt_of_getLsbD hk)).2, hk, Bool.or_true]
  · rwa [Buffer.read_known_writeBit ha]

theorem Buffer.keepsDefined_writeAll {len : Nat} {b : Buffer} (hb : Buffer.wf len b = true) (v : Byte) :
    b.keepsDefined (b.writeAll len v) := by
  intro a k hk
  rw [(Buffer.read_writeAll hb (Nat.le_refl len) a).2]
  split
  · exact getLsbD_allDefined hk
  · exact hk

theorem exec_keepsDefined {i : Instr} (hb : Buffer.wf s.cfg.bufLen s.buf = true) (h : exec i s = .next t) :
    s.buf.keepsDefined t.buf := by
  cases i with
  | setdot x y f =>
    rcases execSetdot_cases h with ⟨-, rfl⟩ | ⟨-, -, rfl⟩ | ⟨-, -, -, n, -, rfl⟩
    · exact s.buf.keepsDefined_refl
    · exact s.buf.keepsDefined_refl
    · exact Buffer.keepsDefined_writeBit hb _ n f
  | setbyte c r v =>
    rcases execSetbyte_cases h with ⟨-, rfl⟩ | ⟨-, -, rfl⟩ | ⟨-, -, -, rfl⟩
    · exact s.buf.keepsDefined_refl
    · exact s.buf.keepsDefined_refl
    · exact Buffer.keepsDefined_writeByte hb _ v
  | getbyte c r =>
    rcases execGetbyte_cases h with ⟨-, rfl⟩ | ⟨-, -, rfl⟩ | ⟨-, -, -, rfl⟩ <;> exact s.buf.keepsDefined_refl
  | clear =>
    rcases execClear_cases h with ⟨-, rfl⟩ | ⟨-, rfl⟩
    · exact s.buf.keepsDefined_refl
    · exact Buffer.keepsDefined_writeAll hb _
  | fill v =>
    rcases execFill_cases h with ⟨-, rfl⟩ | ⟨-, rfl⟩
    · exact s.buf.keepsDefined_refl
    · exact Buffer.keepsDefined_writeAll hb v
  | update =>
    rcases execUpdate_cases h with ⟨-, rfl⟩ | ⟨-, rfl⟩ <;> exact s.buf.keepsDefined_refl

theorem runWord_keepsDefined {w : Word} (hb : Buffer.wf s.cfg.bufLen s.buf = true) (h : runWord w s = .next t) :
    s.buf.keepsDefined t.buf := by
  rcases runWord_cases h with ⟨i, -, hexec⟩ | ⟨why, -, rfl⟩
  · exact exec_keepsDefined hb hexec
  · exact s.buf.keepsDefined_refl

/-! ## What sets FATAL and what begins a cleanup -/

/-- A word accepted leaves the configuration, and neither sets FATAL nor begins a cleanup. -/
theorem runWord_keeps_cfg_and_flags {w : Word} (h : runWord w s = .next t) :
    t.cfg = s.cfg ∧ t.fatal = s.fatal ∧ (s.cleanup = false → t.cleanup = false) := by
  rcases runWord_answers_or_starts h with ⟨b, n, st, d, -, rfl⟩ | ⟨-, rfl⟩
  · exact ⟨rfl, rfl, id⟩
  · exact ⟨rfl, rfl, fun _ => rfl⟩

theorem eventAnswered_sets_fatal {ev : TxEvent} {a : TxAnswer} (h : eventAnswered ev a s = .next t)
    (hf : s.fatal = false) (ht : t.fatal = true) : (s.cleanup = true ∨ a = .fail) ∧ t = s.finishFail := by
  rcases eventAnswered_cases h with ⟨hc, rfl⟩ | ⟨-, -, hacc⟩ | ⟨-, rfl, rfl⟩
  · refine ⟨.inl hc, ?_⟩
    rcases cleanupAnswered_cases ev s with ⟨-, heq⟩ | ⟨-, heq⟩
    · simp [heq, hf] at ht
    · exact heq
  · simp [(eventAccepted_frame hacc).2.1, hf] at ht
  · refine ⟨.inr rfl, ?_⟩
    rcases txFail_cases ev s with ⟨-, heq⟩ | ⟨-, heq⟩ | ⟨-, heq⟩
    · exact heq
    · simp [heq, hf] at ht
    · simp [heq, hf] at ht

theorem eventAnswered_begins_cleanup {ev : TxEvent} {a : TxAnswer} (h : eventAnswered ev a s = .next t)
    (hc : s.cleanup = false) (ht : t.cleanup = true) : a = .fail := by
  rcases eventAnswered_cases h with ⟨hc', -⟩ | ⟨-, -, hacc⟩ | ⟨-, rfl, -⟩
  · simp [hc] at hc'
  · simp [(eventAccepted_frame hacc).2.2, hc] at ht
  · rfl

theorem transportTurn_sets_fatal {ev : TxEvent} (h : transportTurn ev s = .next t) (hf : s.fatal = false)
    (ht : t.fatal = true) :
    (s.cleanup = true ∨ ∃ rest, s.txAns = some .fail :: rest) ∧ answered s t .errTransport 0x00#8 := by
  rcases transportTurn_cases h with ⟨-, rfl⟩ | ⟨rest, -, rfl⟩ | ⟨a, rest, hans, h⟩
  · simp [hf] at ht
  · simp [hf] at ht
  · obtain ⟨hcause, rfl⟩ := eventAnswered_sets_fatal h hf ht
    exact ⟨hcause.imp_right fun ha => ⟨rest, by rw [hans, ha]⟩, rfl, rfl⟩

theorem transportTurn_begins_cleanup {ev : TxEvent} (h : transportTurn ev s = .next t) (hc : s.cleanup = false)
    (ht : t.cleanup = true) : ∃ rest, s.txAns = some .fail :: rest := by
  rcases transportTurn_cases h with ⟨-, rfl⟩ | ⟨rest, -, rfl⟩ | ⟨a, rest, hans, h⟩
  · simp [hc] at ht
  · simp [hc] at ht
  · exact ⟨rest, eventAnswered_begins_cleanup h hc ht ▸ hans⟩

/-- In a safe state PORT is ready exactly when SER is idle: both say that no event is offered (R32). -/
theorem State.Inv.ready_iff_idle (hs : s.Inv) : s.port = .ready ↔ s.ser.phase = .idle := by
  cases htx : s.tx with
  | none =>
    obtain ⟨hport, -, -, hphase, -, -⟩ := hs.quiet_of_no_event htx
    simp [hport, hphase]
  | some ev =>
    obtain ⟨-, -, hport, hphase, -⟩ := hs.in_flight_of_offered htx
    simp [hport, hphase]

theorem State.Inv.phase_idle_of_no_event (hs : s.Inv) (htx : s.tx = none) : s.ser.phase = .idle := by
  obtain ⟨-, -, -, hphase, -, -⟩ := hs.quiet_of_no_event htx
  exact hphase

end

/-! ## The statements -/

/-- Settles O14: the case split over RST, the Transport's turn, an idle turn and a word accepted, each of which keeps the
invariant. -/
theorem stepKeepsTheInvariant : Obligations.StepKeepsTheInvariant := by
  intro s t hs h
  rcases step_turn_cases h with ⟨rest, -, rfl⟩ | ⟨ev, htx, hturn⟩ | ⟨-, rfl⟩ | ⟨htx, w, rest, -, hword⟩
  · exact resetBlock_inv hs.cfgOk
  · exact transportTurn_inv (hs.of_ports s.cmdIn s.txAns s.rstIn.tail s.txOut) htx hturn
  · exact hs.of_ports _ _ _ _
  · exact runWord_inv (s := afterAccept s rest) (hs.of_ports rest s.txAns s.rstIn.tail s.txOut) htx hword

/-- Settles O16: in flight an event is offered, so a step without RST is the Transport's turn, which takes no word and writes
no byte. -/
theorem nothingIsAcceptedWhileInFlight : Obligations.NothingIsAcceptedWhileInFlight := by
  intro s hs
  refine ⟨hs.ready_iff_idle, fun t hrun hrst h => ?_⟩
  have hoffered : s.tx ≠ none := fun htx => by simp [hs.phase_idle_of_no_event htx] at hrun
  rcases step_turn_cases h with ⟨rest, hr, -⟩ | ⟨ev, -, hturn⟩ | ⟨htx, -⟩ | ⟨htx, -⟩
  · simp [hr] at hrst
  · obtain ⟨-, hbuf, hcmd⟩ := transportTurn_frame hturn
    exact ⟨hcmd, hbuf⟩
  · exact absurd htx hoffered
  · exact absurd htx hoffered

/-- Settles O21: RST clears both flags, a word accepted raises neither, and of the Transport's turns only a failing answer and
the end of a cleanup do. -/
theorem onlyTransportFailureSetsFatal : Obligations.OnlyTransportFailureSetsFatal := by
  intro s t h
  rcases step_turn_cases h with ⟨rest, -, rfl⟩ | ⟨ev, htx, hturn⟩ | ⟨-, rfl⟩ | ⟨-, w, rest, -, hword⟩
  · exact ⟨fun _ ht => by simp at ht, fun _ ht => by simp at ht⟩
  · have hoffered : s.tx.isSome := by simp [htx]
    refine ⟨fun hf ht => ?_, fun hc ht => ⟨hoffered, (transportTurn_begins_cleanup hturn hc ht :)⟩⟩
    obtain ⟨hcause, hanswered⟩ := transportTurn_sets_fatal hturn hf ht
    obtain ⟨-, hbuf, -⟩ := transportTurn_frame hturn
    exact ⟨hoffered, hcause, hanswered, hbuf⟩
  · exact ⟨fun hf ht => by simp [hf] at ht, fun hc ht => by simp [hc] at ht⟩
  · obtain ⟨-, hfatal, hclean⟩ := runWord_keeps_cfg_and_flags hword
    exact ⟨fun hf ht => by simp [hfatal, afterAccept, hf] at ht, fun hc ht => by simp [hclean hc] at ht⟩

/-- Settles O23: RST restores all but the configuration, and neither the Transport's turn nor a word accepted writes it. -/
theorem configurationIsFixed : Obligations.ConfigurationIsFixed := by
  intro s t h
  rcases step_turn_cases h with ⟨rest, -, rfl⟩ | ⟨ev, -, hturn⟩ | ⟨-, rfl⟩ | ⟨-, w, rest, -, hword⟩
  · rfl
  · exact (transportTurn_frame hturn).1
  · rfl
  · exact (runWord_keeps_cfg_and_flags hword).1

/-- Settles O24: without RST only a word accepted writes the buffer, and every buffer write keeps the marks it finds. -/
theorem definedBitsStayDefined : Obligations.DefinedBitsStayDefined := by
  intro s t hs hrst h
  change s.buf.keepsDefined t.buf
  rcases step_turn_cases h with ⟨rest, hr, -⟩ | ⟨ev, -, hturn⟩ | ⟨-, rfl⟩ | ⟨-, w, rest, -, hword⟩
  · simp [hr] at hrst
  · obtain ⟨-, hbuf, -⟩ := transportTurn_frame hturn
    exact hbuf ▸ s.buf.keepsDefined_refl
  · exact s.buf.keepsDefined_refl
  · exact runWord_keepsDefined (s := afterAccept s rest) hs.bufOk hword

/-- Settles O9: a step of the ready block runs its next word, and a word that decodes runs its command. -/
theorem stepRunsTheDecodedCommand : Obligations.StepRunsTheDecodedCommand := fun _ _ _ _ haccepts hdecode =>
  (step_of_acceptsNext haccepts).trans (runWord_of_decode hdecode)

/-- Settles O12: with RST asserted a step is `resetBlock`, whatever was in flight. -/
theorem resetGivesTheResetValues : Obligations.ResetGivesTheResetValues := fun _ _ hcfg hrst =>
  ⟨_, step_of_rst hcfg hrst, Memory.read_nil, rfl, resetBlock_quiet _, rfl, rfl, rfl, rfl, rfl⟩

/-- Settles O13: the configuration of the reset state is well formed, and reset gives a safe state of any such. -/
theorem resetStateIsSafe : Obligations.ResetStateIsSafe :=
  have hcfg : Config.initial.wellFormed = true := by decide
  ⟨Memory.read_nil, rfl, ⟨rfl, rfl, rfl, rfl, rfl, rfl⟩, rfl, rfl, afterReset_inv hcfg⟩

end Sys2Proof.Machine

/-! # The buffer: which digit and which slot each byte belongs to, and what the buffer commands leave unchanged
(spec/20_memory.md R43 to R47, R152) -/

namespace Sys2Proof.Machine

/-! ## The module bank (R45) -/

/-- The digits of module m's 4 × 2 block are the digits whose module is m. -/
theorem digitModule_of_block (cfg : Config) (m : Nat) {k : Nat} (hk : k < 8) :
    digitModule cfg (4 * (m % cfg.mc) + k % 4) (2 * (m / cfg.mc) + k / 4) = m := by
  have hrow : (2 * (m / cfg.mc) + k / 4) / 2 = m / cfg.mc := by omega
  have hcol : (4 * (m % cfg.mc) + k % 4) / 4 = m % cfg.mc := by omega
  rw [digitModule_eq, hrow, hcol, Nat.div_add_mod']

/-- In a block the digit at local column k mod 4 and local row k div 4 has place k. -/
theorem digitPlace_of_block (p q : Nat) {k : Nat} (hk : k < 8) : digitPlace (4 * p + k % 4) (2 * q + k / 4) = k := by
  rw [digitPlace_eq]
  omega

/-- Settles O27: the bounds are those of m mod MC and m div MC, and the address is its module and place put together. -/
theorem moduleBankMap : Obligations.ModuleBankMap := by
  intro cfg m k hm hk
  have hmc : 0 < cfg.mc := Nat.pos_of_mul_pos_right (Nat.zero_lt_of_lt hm)
  have hcol : m % cfg.mc < cfg.mc := Nat.mod_lt m hmc
  have hrow : m / cfg.mc < cfg.mr := Nat.div_lt_of_lt_mul hm
  refine ⟨?_, ?_, ?_⟩
  · unfold Config.digitCols
    omega
  · unfold Config.digitRows
    omega
  · rw [addr_eq_bank, digitModule_of_block cfg m hk, digitPlace_of_block _ _ hk, Nat.mul_comm]

/-! ## The slots of a plane (R120, R128) -/

/-- In a well-formed configuration the slots' modules are the modules of the chain in another order. -/
theorem displayOrder_perm {cfg : Config} (hc : cfg.wellFormed = true) :
    (displayOrder cfg).Perm ((List.range cfg.numModules).map some) := by
  obtain ⟨-, -, hnodup⟩ := reorderOk_iff.mp (wellFormed_iff.mp hc).2.2
  have hsub : displayOrder cfg ⊆ (List.range cfg.numModules).map some := by
    intro x hx
    obtain ⟨j, hj, rfl⟩ := List.mem_map.mp hx
    obtain ⟨d, hd, hlt⟩ := exists_displayIndex hc (List.mem_range.mp hj)
    exact hd ▸ List.mem_map_of_mem (List.mem_range.mpr hlt)
  exact (hnodup.subperm hsub).perm_of_length_le (by simp [displayOrder])

theorem exists_slot_of_module {cfg : Config} (hc : cfg.wellFormed = true) {d : Nat} (hd : d < cfg.numModules) :
    ∃ j < cfg.numModules, displayIndex cfg j = some d := by
  have hmem : some d ∈ displayOrder cfg :=
    (displayOrder_perm hc).mem_iff.mpr (List.mem_map_of_mem (List.mem_range.mpr hd))
  obtain ⟨j, hj, hjd⟩ := List.mem_map.mp hmem
  exact ⟨j, List.mem_range.mp hj, hjd⟩

theorem slot_unique {cfg : Config} (hc : cfg.wellFormed = true) {j k : Nat} (hj : j < cfg.numModules)
    (hk : k < cfg.numModules) (h : displayIndex cfg j = displayIndex cfg k) : j = k := by
  obtain ⟨-, -, hnodup⟩ := reorderOk_iff.mp (wellFormed_iff.mp hc).2.2
  exact List.inj_on_of_nodup_map hnodup (List.mem_range.mpr hj) (List.mem_range.mpr hk) h

/-- Settles O35: offset o is byte o mod 8 of module o div 8, and exactly one slot sends that module. -/
theorem eachByteIsSentOnce : Obligations.EachByteIsSentOnce := by
  intro cfg hc o ho
  obtain ⟨j, hj, hjd⟩ := exists_slot_of_module hc (Nat.div_lt_of_lt_mul ho)
  refine ⟨o % 8, j, o / 8, Nat.mod_lt o (by decide), hj, hjd, Nat.div_add_mod' o 8, ?_⟩
  intro i' j' d' hi' hj' hjd' ho'
  have hd' : d' = o / 8 := by omega
  exact ⟨by omega, slot_unique hc hj' hj (by rw [hjd', hjd, hd'])⟩

/-! ## Frames -/

/-- A write of the whole buffer leaves every offset past it alone, whatever the buffer. -/
theorem Buffer.read_writeAll_past {b : Buffer} {n a : Nat} {v : Byte} (h : ¬ a < n) :
    Memory.read (b.writeAll n v).data a = Memory.read b.data a ∧
    Memory.read (b.writeAll n v).known a = Memory.read b.known a := by
  induction n with
  | zero => exact ⟨rfl, rfl⟩
  | succ n ih =>
    have ha : a ≠ n := by omega
    rw [Buffer.writeAll_succ, Buffer.read_data_writeByte ha, Buffer.read_known_writeByte ha]
    exact ih (by omega)

section
variable {s t : State} {touched : Nat → Prop}

/-- What a buffer command leaves as it was: all but the response, PORT and the bytes at the touched offsets. -/
def storesOnlyAt (touched : Nat → Prop) (s t : State) : Prop :=
  restUnchanged s t ∧ t.draws = s.draws ∧ ∀ o, ¬ touched o → byteUnchanged s t o

theorem restUnchanged_answer (s : State) (b : Buffer) (n : Nat) (st : Status) (d : Byte) :
    restUnchanged s ({ s with buf := b, draws := n }.respond st d) :=
  ⟨rfl, rfl, rfl, rfl, rfl, rfl, rfl, rfl, rfl⟩

theorem storesOnlyAt_respond (s : State) (st : Status) (d : Byte) : storesOnlyAt touched s (s.respond st d) :=
  ⟨restUnchanged_answer s s.buf s.draws st d, rfl, fun _ _ => ⟨rfl, rfl⟩⟩

theorem storesOnlyAt_writeByte (s : State) (a : Nat) (v : Byte) (st : Status) (d : Byte) :
    storesOnlyAt (· = a) s ({ s with buf := s.buf.writeByte a v }.respond st d) :=
  ⟨restUnchanged_answer s _ s.draws st d, rfl, fun _ ho => ⟨Buffer.read_data_writeByte ho, Buffer.read_known_writeByte ho⟩⟩

theorem storesOnlyAt_writeBit (s : State) (a k : Nat) (v : Bool) (st : Status) (d : Byte) :
    storesOnlyAt (· = a) s ({ s with buf := s.buf.writeBit a k v }.respond st d) :=
  ⟨restUnchanged_answer s _ s.draws st d, rfl, fun _ ho => ⟨Buffer.read_data_writeBit ho, Buffer.read_known_writeBit ho⟩⟩

theorem storesOnlyAt_writeAll (s : State) (v : Byte) (st : Status) (d : Byte) :
    storesOnlyAt (· < s.cfg.bufLen) s ((s.bufWriteAll v).respond st d) :=
  ⟨restUnchanged_answer s _ s.draws st d, rfl, fun _ ho => Buffer.read_writeAll_past ho⟩

theorem execSetdot_frame {x y : Nat} {f : Bool} (h : execSetdot x y f s = .next t) :
    storesOnlyAt (· = pixelOffset s.cfg x y) s t := by
  rcases execSetdot_cases h with ⟨-, rfl⟩ | ⟨-, -, rfl⟩ | ⟨-, -, -, k, -, rfl⟩
  · exact storesOnlyAt_respond s _ _
  · exact storesOnlyAt_respond s _ _
  · exact storesOnlyAt_writeBit s _ k f _ _

theorem execSetbyte_frame {c r : Nat} {v : Byte} (h : execSetbyte c r v s = .next t) :
    storesOnlyAt (· = addr s.cfg c r) s t := by
  rcases execSetbyte_cases h with ⟨-, rfl⟩ | ⟨-, -, rfl⟩ | ⟨-, -, -, rfl⟩
  · exact storesOnlyAt_respond s _ _
  · exact storesOnlyAt_respond s _ _
  · exact storesOnlyAt_writeByte s _ v _ _

/-- GETBYTE stores nothing; it may count a draw (R28). -/
theorem execGetbyte_frame {c r : Nat} (h : execGetbyte c r s = .next t) : restUnchanged s t ∧ t.buf = s.buf := by
  rcases execGetbyte_cases h with ⟨-, rfl⟩ | ⟨-, -, rfl⟩ | ⟨-, -, -, rfl⟩
  · exact ⟨restUnchanged_answer s s.buf s.draws _ _, rfl⟩
  · exact ⟨restUnchanged_answer s s.buf s.draws _ _, rfl⟩
  · exact ⟨restUnchanged_answer s s.buf (s.draws + 1) _ _, rfl⟩

theorem execFill_frame {v : Byte} (h : execFill v s = .next t) : storesOnlyAt (· < s.cfg.bufLen) s t := by
  rcases execFill_cases h with ⟨-, rfl⟩ | ⟨-, rfl⟩
  · exact storesOnlyAt_respond s _ _
  · exact storesOnlyAt_writeAll s v _ _

/-- CLEAR is FILL 0x00 (R151). -/
theorem execClear_eq_execFill (s : State) : execClear s = execFill 0x00#8 s := rfl

end

/-- Settles O42: the frame of each command, from the ways it can answer. -/
theorem bufferCommandFrame : Obligations.BufferCommandFrame := by
  intro s t
  refine ⟨fun _ _ _ => execSetdot_frame, fun _ _ _ => execSetbyte_frame, fun _ _ h => ?_, fun h => ?_,
    fun _ => execFill_frame⟩
  · obtain ⟨hrest, hbuf⟩ := execGetbyte_frame h
    exact ⟨hrest, fun o => by simp [byteUnchanged, hbuf]⟩
  · exact execFill_frame ((execClear_eq_execFill s).symm.trans h)

/-! ## Read after write (R47) -/

section
variable {s t : State} {c r : Nat}

theorem execSetbyte_of_inRange (v : Byte) (hf : s.fatal = false) (hin : inRangeD s.cfg c r = true) :
    execSetbyte c r v s = .next ({ s with buf := s.buf.writeByte (addr s.cfg c r) v }.respond .ok 0x00#8) := by
  simp [execSetbyte, State.bufWrite, hf, hin, addr_lt_bufLen hin]

theorem execGetbyte_of_inRange (hf : s.fatal = false) (hin : inRangeD s.cfg c r = true) :
    execGetbyte c r s = .next ({ s with draws := s.draws + 1 }.respond .ok
      (s.buf.value (addr s.cfg c r) (Config.freeByte s.draws))) := by
  simp [execGetbyte, State.bufRead, hf, hin, addr_lt_bufLen hin]

/-- GETBYTE at a wholly defined byte answers that byte: no draw shows in it (R28, R84). -/
theorem execGetbyte_of_known (hf : s.fatal = false) (hin : inRangeD s.cfg c r = true)
    (hknown : Memory.read s.buf.known (addr s.cfg c r) = 0xFF#8) :
    ∃ u, execGetbyte c r s = .next u ∧ answered s u .ok (Memory.read s.buf.data (addr s.cfg c r)) :=
  ⟨_, execGetbyte_of_inRange hf hin, by rw [Buffer.value_of_known hknown]; exact ⟨rfl, rfl⟩⟩

end

/-- Settles O45: SETBYTE leaves its digit's byte wholly defined with the value written, and GETBYTE answers such a byte. -/
theorem setbyteThenGetbyte : Obligations.SetbyteThenGetbyte := by
  intro c r v s t hb hf hc hr h
  have hin : inRangeD s.cfg c r = true := inRangeD_iff.mpr ⟨hc, hr⟩
  obtain rfl := Host.Outcome.next.inj ((execSetbyte_of_inRange v hf hin).symm.trans h)
  obtain ⟨hdata, hknown⟩ := Buffer.read_writeByte_same (o := addr s.cfg c r) (v := v) hb
  obtain ⟨u, hu, hans⟩ := execGetbyte_of_known
    (s := { s with buf := s.buf.writeByte (addr s.cfg c r) v }.respond .ok 0x00#8) hf hin hknown
  exact ⟨u, hu, hdata ▸ hans⟩

end Sys2Proof.Machine

/-! # The opcode map: decoder and encoder are inverse (spec/30_encoding.md R60 to R66, R70) -/

namespace Sys2Proof

section
variable {w : Word} {i : Instr}

/-! ## The command a word carries, by its row -/

/-- The command of i's row whose operands are the fields of w (R62, R63). -/
def Instr.readFrom (w : Word) : Instr → Instr
  | .setdot _ _ _ => .setdot (wordField w 11 0) (wordField w 23 12) (w.getLsbD 24)
  | .setbyte _ _ _ => .setbyte (wordField w 9 0) (wordField w 19 10) (w.extractLsb 27 20)
  | .getbyte _ _ => .getbyte (wordField w 9 0) (wordField w 19 10)
  | .clear => .clear
  | .fill _ => .fill (w.extractLsb 7 0)
  | .update => .update

theorem row_readFrom (w : Word) (i : Instr) : (i.readFrom w).row = i.row := by
  cases i <;> rfl

theorem row_mem_opcodeRows (i : Instr) : i.row ∈ opcodeRows := by
  cases i <;> simp [Instr.row, opcodeRows]

theorem exists_instr_of_row {row : OpcodeRow} (h : row ∈ opcodeRows) : ∃ i : Instr, i.row = row := by
  simp only [opcodeRows, List.mem_cons, List.not_mem_nil, or_false] at h
  rcases h with rfl | rfl | rfl | rfl | rfl | rfl
  · exact ⟨.setdot 0 0 false, rfl⟩
  · exact ⟨.setbyte 0 0 0#8, rfl⟩
  · exact ⟨.getbyte 0 0, rfl⟩
  · exact ⟨.clear, rfl⟩
  · exact ⟨.fill 0#8, rfl⟩
  · exact ⟨.update, rfl⟩

/-- A word that selects a command's row fails the rows tested before it, and decodes by that row. -/
theorem decode_of_selects (h : i.row.selects w = true) : decode w = .instr (i.readFrom w) := by
  simp only [decode, selects_setdot, selects_setbyte, selects_getbyte, selects_clear, selects_fill, selects_update]
  cases i with
  | setdot x y f => exact if_pos (selects_setdot.mp h)
  | setbyte c r v =>
    have hw := selects_setbyte.mp h
    rw [if_neg (by omega), if_pos hw, Instr.readFrom]
  | getbyte c r =>
    have hw := selects_getbyte.mp h
    rw [if_neg (by omega), if_neg (by omega), if_pos hw, Instr.readFrom]
  | clear =>
    have hw := selects_clear.mp h
    rw [if_neg (by omega), if_neg (by omega), if_neg (by omega), if_pos hw, Instr.readFrom]
  | fill v =>
    have hw := selects_fill.mp h
    rw [if_neg (by omega), if_neg (by omega), if_neg (by omega), if_neg (by omega), if_pos hw, Instr.readFrom]
  | update =>
    have hw := selects_update.mp h
    rw [if_neg (by omega), if_neg (by omega), if_neg (by omega), if_neg (by omega), if_neg (by omega), if_pos hw,
      Instr.readFrom]

/-- A word decodes to a command exactly when it selects the command's row and its fields are the command's operands. -/
theorem decode_eq_instr_iff : decode w = .instr i ↔ i.row.selects w = true ∧ i.readFrom w = i := by
  constructor
  · intro h
    rcases decode_cases w with ⟨hw, hd⟩ | ⟨hw, hd⟩ | ⟨hw, hd⟩ | ⟨hw, hd⟩ | ⟨hw, hd⟩ | ⟨hw, hd⟩ | ⟨-, hd⟩ <;>
      cases hd.symm.trans h
    · exact ⟨selects_setdot.mpr hw, rfl⟩
    · exact ⟨selects_setbyte.mpr hw, rfl⟩
    · exact ⟨selects_getbyte.mpr hw, rfl⟩
    · exact ⟨selects_clear.mpr hw, rfl⟩
    · exact ⟨selects_fill.mpr hw, rfl⟩
    · exact ⟨selects_update.mpr hw, rfl⟩
  · rintro ⟨hrow, hfields⟩
    rw [decode_of_selects hrow, hfields]

/-- A word selects a row exactly when it decodes to a command of that row (R64). -/
theorem selects_iff_decode {row : OpcodeRow} (hrow : row ∈ opcodeRows) :
    row.selects w = true ↔ ∃ i, decode w = .instr i ∧ i.row = row := by
  constructor
  · intro h
    obtain ⟨i, rfl⟩ := exists_instr_of_row hrow
    exact ⟨i.readFrom w, decode_of_selects h, row_readFrom w i⟩
  · rintro ⟨i, hi, rfl⟩
    exact (decode_eq_instr_iff.mp hi).1

/-- A word is illegal exactly when it selects no row. -/
theorem decode_illegal_iff : (∃ why, decode w = .illegal why) ↔ ∀ row ∈ opcodeRows, row.selects w = false := by
  constructor
  · rintro ⟨why, hwhy⟩ row hrow
    refine Bool.eq_false_iff.mpr fun h => ?_
    obtain ⟨i, hi, -⟩ := (selects_iff_decode hrow).mp h
    cases hwhy.symm.trans hi
  · intro h
    cases hd : decode w with
    | instr i =>
      have hsel := (decode_eq_instr_iff.mp hd).1
      rw [h _ (row_mem_opcodeRows i)] at hsel
      cases hsel
    | illegal why => exact ⟨why, rfl⟩

/-! ## The operands as numbers (R60, R62, R63) -/

theorem getLsbD_eq_iff {k : Nat} {f : Bool} : w.getLsbD k = f ↔ w.toNat / 2 ^ k % 2 = f.toNat := by
  rw [BitVec.getLsbD, ← Nat.toNat_testBit]
  exact ⟨congrArg Bool.toNat, fun h => by simpa using congrArg (· == 1) h⟩

theorem readFrom_setdot_iff {x y : Nat} {f : Bool} :
    Instr.readFrom w (.setdot x y f) = .setdot x y f ↔
      w.toNat % 2 ^ 12 = x ∧ w.toNat / 2 ^ 12 % 2 ^ 12 = y ∧ w.toNat / 2 ^ 24 % 2 = f.toNat := by
  rw [Instr.readFrom, Instr.setdot.injEq, getLsbD_eq_iff]
  simp [wordField_eq]

theorem readFrom_setbyte_iff {c r : Nat} {v : Byte} :
    Instr.readFrom w (.setbyte c r v) = .setbyte c r v ↔
      w.toNat % 2 ^ 10 = c ∧ w.toNat / 2 ^ 10 % 2 ^ 10 = r ∧ w.toNat / 2 ^ 20 % 2 ^ 8 = v.toNat := by
  rw [Instr.readFrom, Instr.setbyte.injEq, ← BitVec.toNat_inj, ← wordField]
  simp [wordField_eq]

theorem readFrom_getbyte_iff {c r : Nat} :
    Instr.readFrom w (.getbyte c r) = .getbyte c r ↔ w.toNat % 2 ^ 10 = c ∧ w.toNat / 2 ^ 10 % 2 ^ 10 = r := by
  rw [Instr.readFrom, Instr.getbyte.injEq]
  simp [wordField_eq]

theorem readFrom_fill_iff {v : Byte} :
    Instr.readFrom w (.fill v) = .fill v ↔ w.toNat % 2 ^ 8 = v.toNat := by
  rw [Instr.readFrom, Instr.fill.injEq, ← BitVec.toNat_inj, ← wordField]
  simp [wordField_eq]

theorem wellFormed_setdot_iff {x y : Nat} {f : Bool} : (Instr.setdot x y f).wellFormed = true ↔ x < 4096 ∧ y < 4096 := by
  simp [Instr.wellFormed]

theorem wellFormed_setbyte_iff {c r : Nat} {v : Byte} :
    (Instr.setbyte c r v).wellFormed = true ↔ c < 1024 ∧ r < 1024 := by
  simp [Instr.wellFormed]

theorem wellFormed_getbyte_iff {c r : Nat} : (Instr.getbyte c r).wellFormed = true ↔ c < 1024 ∧ r < 1024 := by
  simp [Instr.wellFormed]

/-! ## The two round trips -/

theorem row_selects_encode (h : i.wellFormed = true) : i.row.selects (encode i) = true := by
  cases i with
  | setdot x y f => exact Laws.EncodeSelectsRow.setdot x y f h
  | setbyte c r v => exact Laws.EncodeSelectsRow.setbyte c r v h
  | getbyte c r => exact Laws.EncodeSelectsRow.getbyte c r h
  | clear => exact Laws.EncodeSelectsRow.clear h
  | fill v => exact Laws.EncodeSelectsRow.fill v h
  | update => exact Laws.EncodeSelectsRow.update h

/-- The fields of a well-formed command's encoding are its operands: none is cut off and none overlaps another. -/
theorem readFrom_encode (h : i.wellFormed = true) : i.readFrom (encode i) = i := by
  cases i with
  | setdot x y f =>
    obtain ⟨hx, hy⟩ := wellFormed_setdot_iff.mp h
    have hf : f.toNat ≤ 1 := Bool.toNat_le f
    rw [readFrom_setdot_iff, encode_setdot_toNat hx hy]
    omega
  | setbyte c r v =>
    obtain ⟨hc, hr⟩ := wellFormed_setbyte_iff.mp h
    have hv : v.toNat < 2 ^ 8 := v.isLt
    rw [readFrom_setbyte_iff, encode_setbyte_toNat hc hr]
    omega
  | getbyte c r =>
    obtain ⟨hc, hr⟩ := wellFormed_getbyte_iff.mp h
    rw [readFrom_getbyte_iff, encode_getbyte_toNat hc hr]
    omega
  | clear => rfl
  | fill v =>
    have hv : v.toNat < 2 ^ 8 := v.isLt
    rw [readFrom_fill_iff, encode_fill_toNat]
    omega
  | update => rfl

theorem wordField_lt (w : Word) (hi lo : Nat) : wordField w hi lo < 2 ^ (hi - lo + 1) :=
  (w.extractLsb hi lo).isLt

theorem wellFormed_readFrom (w : Word) (i : Instr) : (i.readFrom w).wellFormed = true := by
  cases i with
  | setdot x y f => exact wellFormed_setdot_iff.mpr ⟨wordField_lt w 11 0, wordField_lt w 23 12⟩
  | setbyte c r v => exact wellFormed_setbyte_iff.mpr ⟨wordField_lt w 9 0, wordField_lt w 19 10⟩
  | getbyte c r => exact wellFormed_getbyte_iff.mpr ⟨wordField_lt w 9 0, wordField_lt w 19 10⟩
  | clear => rfl
  | fill v => rfl
  | update => rfl

/-- Row and operands together are the whole word: the bits outside every field are the row's match bits. -/
theorem encode_eq_of_fields (hrow : i.row.selects w = true) (hfields : i.readFrom w = i) : encode i = w := by
  have hwf : i.wellFormed = true := hfields ▸ wellFormed_readFrom w i
  apply BitVec.eq_of_toNat_eq
  cases i with
  | setdot x y f =>
    obtain ⟨hx, hy⟩ := wellFormed_setdot_iff.mp hwf
    have hw := selects_setdot.mp hrow
    have hoperands := readFrom_setdot_iff.mp hfields
    rw [encode_setdot_toNat hx hy]
    omega
  | setbyte c r v =>
    obtain ⟨hc, hr⟩ := wellFormed_setbyte_iff.mp hwf
    have hw := selects_setbyte.mp hrow
    have hoperands := readFrom_setbyte_iff.mp hfields
    rw [encode_setbyte_toNat hc hr]
    omega
  | getbyte c r =>
    obtain ⟨hc, hr⟩ := wellFormed_getbyte_iff.mp hwf
    have hw := selects_getbyte.mp hrow
    have hoperands := readFrom_getbyte_iff.mp hfields
    rw [encode_getbyte_toNat hc hr]
    omega
  | clear => exact (selects_clear.mp hrow).symm
  | fill v =>
    have hw := selects_fill.mp hrow
    have hoperand := readFrom_fill_iff.mp hfields
    rw [encode_fill_toNat]
    omega
  | update => exact (selects_update.mp hrow).symm

/-! ## The ORs of R70 on numbers -/

theorem placeField_toNat_shift {v lo : Nat} (h : v * 2 ^ lo < 2 ^ 32) : (placeField v lo).toNat = v <<< lo := by
  rw [placeField_toNat h, Nat.shiftLeft_eq]

end

/-! ## The statements -/

/-- Settles O1: a well-formed command's encoding selects the command's row and carries its operands. -/
theorem decodeOfEncode : Obligations.DecodeOfEncode := fun _ hwf =>
  decode_eq_instr_iff.mpr ⟨row_selects_encode hwf, readFrom_encode hwf⟩

/-- Settles O2: the fields of a word fit, and with the match bits of its row they are all of it. -/
theorem encodeOfDecode : Obligations.EncodeOfDecode := by
  intro w i h
  obtain ⟨hrow, hfields⟩ := decode_eq_instr_iff.mp h
  exact ⟨hfields ▸ wellFormed_readFrom w i, encode_eq_of_fields hrow hfields⟩

/-- Settles O3: a word that selects a row decodes to a command of it, and it decodes to one thing. -/
theorem atMostOneRowMatches : Obligations.AtMostOneRowMatches := by
  refine fun w => ⟨fun r₁ h₁ r₂ h₂ hsel₁ hsel₂ => ?_, fun row hrow => ?_⟩
  · obtain ⟨i, hi, rfl⟩ := (selects_iff_decode h₁).mp hsel₁
    obtain ⟨j, hj, rfl⟩ := (selects_iff_decode h₂).mp hsel₂
    cases hi.symm.trans hj
    rfl
  · rw [← selects_iff_decode hrow, OpcodeRow.selects, beq_iff_eq]

/-- Settles O4: the operands of a decoded command are the fields its row is read by. -/
theorem operandsAreZeroExtendedFields : Obligations.OperandsAreZeroExtendedFields := by
  refine fun w => ⟨fun x y f h => ?_, fun c r v h => ?_, fun c r h => ?_, fun v h => ?_⟩
  · obtain ⟨hx, hy, hf⟩ := readFrom_setdot_iff.mp (decode_eq_instr_iff.mp h).2
    exact ⟨hx.symm, hy.symm, by rw [hf, Bool.toNat_eq_one]⟩
  · obtain ⟨hc, hr, hv⟩ := readFrom_setbyte_iff.mp (decode_eq_instr_iff.mp h).2
    exact ⟨hc.symm, hr.symm, hv.symm⟩
  · obtain ⟨hc, hr⟩ := readFrom_getbyte_iff.mp (decode_eq_instr_iff.mp h).2
    exact ⟨hc.symm, hr.symm⟩
  · exact (readFrom_fill_iff.mp (decode_eq_instr_iff.mp h).2).symm

/-- Settles O5: a word is illegal when it selects no row, and a row is an OP with its reserved bits 0. -/
theorem illegalExactlyOutsideTheMap : Obligations.IllegalExactlyOutsideTheMap := by
  intro w
  rw [decode_illegal_iff]
  simp only [opcodeRows, List.forall_mem_cons, Bool.eq_false_iff, ne_eq, selects_setdot, selects_setbyte, selects_getbyte,
    selects_clear, selects_fill, selects_update, List.not_mem_nil, false_implies, implies_true,
    and_true]
  omega

/-- Settles O6: an operand that fits its field loses no bit where it is placed. -/
theorem encodingFormulas : Obligations.EncodingFormulas := by
  refine ⟨fun x y f h => ?_, fun c r v h => ?_, fun c r h => ?_, rfl, fun v => ?_, rfl⟩
  · obtain ⟨hx, hy⟩ := wellFormed_setdot_iff.mp h
    have hf : f.toNat ≤ 1 := Bool.toNat_le f
    simp (disch := omega) only [encode, BitVec.toNat_or, placeField_toNat_shift]
    rfl
  · obtain ⟨hc, hr⟩ := wellFormed_setbyte_iff.mp h
    have hv : v.toNat < 2 ^ 8 := v.isLt
    simp (disch := omega) only [encode, BitVec.toNat_or, placeField_toNat_shift]
    rfl
  · obtain ⟨hc, hr⟩ := wellFormed_getbyte_iff.mp h
    simp (disch := omega) only [encode, BitVec.toNat_or, placeField_toNat_shift]
    rfl
  · have hv : v.toNat < 2 ^ 8 := v.isLt
    simp (disch := omega) only [encode, BitVec.toNat_or, placeField_toNat_shift]
    rfl

/-- Settles O7: the decoder evaluated on each word. -/
theorem specWordsDecode : Obligations.SpecWordsDecode := by
  unfold Obligations.SpecWordsDecode
  decide

end Sys2Proof

/-! # The assembler (spec/30_encoding.md R68, R69) -/

namespace Sys2Proof.Machine

section
variable {i : Instr}

theorem wellFormed_of_assemble_setdot {x y f : Nat} (h : assemble (.setdot x y f) = some i) : i.wellFormed = true := by
  obtain ⟨⟨hx, hy, -⟩, hi⟩ := Option.ite_none_right_eq_some.mp h
  cases hi
  exact wellFormed_setdot_iff.mpr ⟨Nat.lt_succ_of_le hx, Nat.lt_succ_of_le hy⟩

/-- A line the assembler takes is a well-formed command; DOTON and DOTOFF are SETDOT lines (R69). -/
theorem wellFormed_of_assemble {line : AsmLine} (h : assemble line = some i) : i.wellFormed = true := by
  cases line with
  | setdot x y f => exact wellFormed_of_assemble_setdot h
  | setbyte c r v =>
    obtain ⟨⟨hc, hr, -⟩, hi⟩ := Option.ite_none_right_eq_some.mp h
    cases hi
    exact wellFormed_setbyte_iff.mpr ⟨Nat.lt_succ_of_le hc, Nat.lt_succ_of_le hr⟩
  | getbyte c r =>
    obtain ⟨⟨hc, hr⟩, hi⟩ := Option.ite_none_right_eq_some.mp h
    cases hi
    exact wellFormed_getbyte_iff.mpr ⟨Nat.lt_succ_of_le hc, Nat.lt_succ_of_le hr⟩
  | clear => cases h; rfl
  | fill v =>
    obtain ⟨-, hi⟩ := Option.ite_none_right_eq_some.mp h
    cases hi
    rfl
  | update => cases h; rfl
  | doton x y => exact wellFormed_of_assemble_setdot (f := 1) h
  | dotoff x y => exact wellFormed_of_assemble_setdot (f := 0) h

/-- A line whose operands are checked by p is refused exactly when p fails. -/
theorem checked_eq_none_iff {p : Prop} [Decidable p] : (if p then some i else none) = none ↔ ¬ p := by
  simp

end

/-- Settles O8: each line's check fails exactly when one of its operands is past its field. -/
theorem assemblerChecksOperands : Obligations.AssemblerChecksOperands := by
  refine ⟨fun x y f => checked_eq_none_iff.trans (by omega), fun c r v => checked_eq_none_iff.trans (by omega),
    fun c r => checked_eq_none_iff.trans (by omega), fun v => checked_eq_none_iff.trans (by omega),
    fun x y f hx hy hf => if_pos ⟨hx, hy, hf⟩, fun c r v hc hr hv => if_pos ⟨hc, hr, hv⟩,
    fun c r hc hr => if_pos ⟨hc, hr⟩, fun v hv => if_pos hv, rfl, rfl, fun line i => wellFormed_of_assemble,
    fun x y => ⟨rfl, rfl⟩⟩

end Sys2Proof.Machine

/-! # The responses (spec/30_encoding.md R61, spec/60_exceptions.md R160) -/

namespace Sys2Proof.Machine

section
variable {s t : State}

theorem legalResponse_rspWord {st : Status} {d : Byte} (h : st = .ok ∨ d = 0x00#8) : legalResponse (rspWord st d) := by
  refine ⟨rspReserved_rspWord st d, (rspStatus_rspWord st d).symm ▸ status_code_le st, fun hne => ?_⟩
  rcases h with rfl | rfl
  · exact absurd (rspStatus_rspWord .ok d) hne
  · exact rspData_rspWord st 0x00#8

/-- A command under way in s goes on in t, an event offered and nothing answered, or has ended in t with one legal response. -/
def goesOnOrAnswers (s t : State) : Prop :=
  (t.tx.isSome = true ∧ t.rspOut = s.rspOut) ∨
  (t.tx.isSome = false ∧ ∃ r, t.rspOut = s.rspOut ++ [r] ∧ legalResponse r)

theorem goesOnOrAnswers_respond (htx : s.tx = none) {st : Status} {d : Byte} (h : st = .ok ∨ d = 0x00#8) :
    goesOnOrAnswers s (s.respond st d) :=
  .inr ⟨by simp [htx], _, rfl, legalResponse_rspWord h⟩

theorem goesOnOrAnswers_finishFail (s : State) : goesOnOrAnswers s s.finishFail :=
  .inr ⟨rfl, _, rfl, legalResponse_rspWord (.inr rfl)⟩

theorem runWord_goesOnOrAnswers {w : Word} (h : runWord w s = .next t) (htx : s.tx = none) : goesOnOrAnswers s t := by
  rcases runWord_cases h with ⟨i, -, hexec⟩ | ⟨why, -, rfl⟩
  · rcases exec_cases hexec with ⟨st, rfl⟩ | ⟨c, r, -, -, rfl⟩ | ⟨b, -, -, -, rfl⟩ | ⟨-, -, rfl⟩
    · exact goesOnOrAnswers_respond htx (.inr rfl)
    · exact goesOnOrAnswers_respond (s := { s with draws := s.draws + 1 }) htx (.inl rfl)
    · exact goesOnOrAnswers_respond (s := { s with buf := b }) htx (.inl rfl)
    · exact .inl ⟨rfl, rfl⟩
  · exact goesOnOrAnswers_respond htx (.inr rfl)

theorem runWord_cmdIn {w : Word} (h : runWord w s = .next t) : t.cmdIn = s.cmdIn := by
  rcases runWord_answers_or_starts h with ⟨b, n, st, d, -, rfl⟩ | ⟨-, rfl⟩ <;> rfl

/-- Every accepted event but plane 7's RELEASE leads to another (R127). -/
theorem eventAccepted_goesOnOrAnswers {ev : TxEvent} (h : eventAccepted ev s = .next t) : goesOnOrAnswers s t := by
  rcases eventAccepted_cases h with ⟨-, rfl⟩ | ⟨-, rfl⟩ | ⟨_, -, -, _, -, -, rfl⟩ | ⟨_, -, -, -, rfl⟩ | ⟨_, -, -, -, rfl⟩ |
    ⟨-, rfl⟩ | ⟨-, -, rfl⟩ | ⟨-, -, rfl⟩
  · exact .inl ⟨rfl, rfl⟩
  · exact .inl ⟨rfl, rfl⟩
  · exact .inl ⟨rfl, rfl⟩
  · exact .inl ⟨rfl, rfl⟩
  · exact .inl ⟨rfl, rfl⟩
  · exact .inl ⟨rfl, rfl⟩
  · exact .inl ⟨rfl, rfl⟩
  · exact .inr ⟨rfl, _, rfl, legalResponse_rspWord (.inr rfl)⟩

theorem txFail_goesOnOrAnswers (ev : TxEvent) (s : State) : goesOnOrAnswers s (txFail ev s) := by
  rcases txFail_cases ev s with ⟨-, heq⟩ | ⟨-, heq⟩ | ⟨-, heq⟩ <;> rw [heq]
  · exact goesOnOrAnswers_finishFail s
  · exact .inl ⟨rfl, rfl⟩
  · exact .inl ⟨rfl, rfl⟩

theorem cleanupAnswered_goesOnOrAnswers (ev : TxEvent) (s : State) : goesOnOrAnswers s (cleanupAnswered ev s) := by
  rcases cleanupAnswered_cases ev s with ⟨-, heq⟩ | ⟨-, heq⟩ <;> rw [heq]
  · exact .inl ⟨rfl, rfl⟩
  · exact goesOnOrAnswers_finishFail s

theorem eventAnswered_goesOnOrAnswers {ev : TxEvent} {a : TxAnswer} (h : eventAnswered ev a s = .next t) :
    goesOnOrAnswers s t := by
  rcases eventAnswered_cases h with ⟨-, rfl⟩ | ⟨-, -, hacc⟩ | ⟨-, -, rfl⟩
  · exact cleanupAnswered_goesOnOrAnswers ev s
  · exact eventAccepted_goesOnOrAnswers hacc
  · exact txFail_goesOnOrAnswers ev s

theorem transportTurn_goesOnOrAnswers {ev : TxEvent} (h : transportTurn ev s = .next t) (htx : s.tx = some ev) :
    goesOnOrAnswers s t := by
  rcases transportTurn_cases h with ⟨-, rfl⟩ | ⟨rest, -, rfl⟩ | ⟨a, rest, -, hans⟩
  · exact .inl ⟨by simp [htx], rfl⟩
  · exact .inl ⟨by simp [htx], rfl⟩
  · exact (eventAnswered_goesOnOrAnswers hans :)

/-- A command under way is one command in flight or one response more. -/
theorem goesOnOrAnswers_count (h : goesOnOrAnswers s t) :
    (if t.tx.isSome then 1 else 0) + t.rspOut.length = s.rspOut.length + 1 := by
  rcases h with ⟨htx, hrsp⟩ | ⟨htx, r, hrsp, -⟩
  · simp [htx, hrsp, Nat.add_comm]
  · simp [htx, hrsp]

theorem goesOnOrAnswers_response (h : goesOnOrAnswers s t) :
    t.rspOut = s.rspOut ∨ ∃ r, t.rspOut = s.rspOut ++ [r] ∧ legalResponse r :=
  h.imp And.right And.right

end

/-- Settles O18: the Transport's turn keeps the words waiting and goes on with the command in flight or answers it, and a word
accepted leaves the queue to do the same. -/
theorem oneResponsePerCommand : Obligations.OneResponsePerCommand := by
  intro s t hrst h
  rcases step_turn_cases h with ⟨rest, hr, -⟩ | ⟨ev, htx, hturn⟩ | ⟨-, rfl⟩ | ⟨htx, w, rest, hcmd, hword⟩
  · simp [hr] at hrst
  · obtain ⟨-, -, hcmd⟩ := transportTurn_frame hturn
    have hcount := goesOnOrAnswers_count (transportTurn_goesOnOrAnswers hturn htx)
    simp only [hcmd, htx, Nat.add_assoc, hcount, Option.isSome_some, if_true]
    omega
  · rfl
  · have hcount := goesOnOrAnswers_count (runWord_goesOnOrAnswers hword htx)
    simp only [runWord_cmdIn hword, hcmd, htx, Nat.add_assoc, hcount, afterAccept, List.length_cons, Option.isSome_none,
      Bool.false_eq_true, if_false]
    omega

/-- Settles O19: RST and an idle turn make no response, and the other turns go on or answer with one legal response. -/
theorem responsesAreLegal : Obligations.ResponsesAreLegal := by
  intro s t h
  rcases step_turn_cases h with ⟨rest, -, rfl⟩ | ⟨ev, htx, hturn⟩ | ⟨-, rfl⟩ | ⟨htx, w, rest, -, hword⟩
  · exact .inl rfl
  · exact (goesOnOrAnswers_response (transportTurn_goesOnOrAnswers hturn htx) :)
  · exact .inl rfl
  · exact (goesOnOrAnswers_response (runWord_goesOnOrAnswers hword htx) :)

end Sys2Proof.Machine

/-! # ADDR over the digit grid, and the commands that access one digit (spec/40_buffer_access.md R80 to R84) -/

namespace Sys2Proof.Machine

/-! ## ADDR (R80, R81) -/

section
variable {cfg : Config} {c r : Nat}

theorem addr_div_eight (cfg : Config) (c r : Nat) : addr cfg c r / 8 = digitModule cfg c r := by
  have hk := digitPlace_lt c r
  rw [addr_eq_bank]
  omega

theorem addr_mod_eight (cfg : Config) (c r : Nat) : addr cfg c r % 8 = digitPlace c r := by
  have hk := digitPlace_lt c r
  rw [addr_eq_bank]
  omega

/-- A column of the grid lies in a module column of the chain. -/
theorem div_four_lt_mc (hc : c < cfg.digitCols) : c / 4 < cfg.mc := Nat.div_lt_of_lt_mul (Nat.mul_comm cfg.mc 4 ▸ hc)

theorem digitModule_mod_mc (hc : c < cfg.digitCols) : digitModule cfg c r % cfg.mc = c / 4 := by
  rw [digitModule_eq, Nat.mul_add_mod_of_lt (div_four_lt_mc hc)]

theorem digitModule_div_mc (hc : c < cfg.digitCols) : digitModule cfg c r / cfg.mc = r / 2 := by
  have hlt := div_four_lt_mc hc
  rw [digitModule_eq, Nat.mul_comm, Nat.mul_add_div (Nat.zero_lt_of_lt hlt), Nat.div_eq_of_lt hlt, Nat.add_zero]

/-- The module fixes c div 4 and r div 2, the place fixes c mod 4 and r mod 2. -/
theorem addr_injective {c' r' : Nat} (hc : c < cfg.digitCols) (hc' : c' < cfg.digitCols)
    (h : addr cfg c r = addr cfg c' r') : c = c' ∧ r = r' := by
  have hmodule : digitModule cfg c r = digitModule cfg c' r' := by rw [← addr_div_eight, h, addr_div_eight]
  have hplace : c % 4 + 4 * (r % 2) = c' % 4 + 4 * (r' % 2) := by
    rw [← digitPlace_eq, ← digitPlace_eq, ← addr_mod_eight cfg, h, addr_mod_eight]
  have hcol : c / 4 = c' / 4 := by rw [← digitModule_mod_mc (r := r) hc, hmodule, digitModule_mod_mc hc']
  have hrow : r / 2 = r' / 2 := by rw [← digitModule_div_mc (r := r) hc, hmodule, digitModule_div_mc hc']
  omega

/-- Under R8's limits the buffer has 86016 bytes at most. -/
theorem bufLen_lt_two_pow (hmc : cfg.mc ≤ 256) (hmr : cfg.mr ≤ 42) : cfg.bufLen < 2 ^ 17 := by
  have hn : cfg.numModules ≤ 256 * 42 := Nat.mul_le_mul hmc hmr
  unfold Config.bufLen
  omega

end

/-- Settles O25: the grid's addresses lie in the buffer, address determines digit, and offset o is the place o mod 8 of module
o div 8. -/
theorem addrIsABijection : Obligations.AddrIsABijection := by
  intro cfg
  refine ⟨fun c r hc hr => addr_lt_bufLen (inRangeD_iff.mpr ⟨hc, hr⟩),
    fun c r c' r' hc _ hc' _ h => addr_injective hc hc' h, fun o ho => ?_⟩
  obtain ⟨hcol, hrow, haddr⟩ := moduleBankMap cfg (o / 8) (o % 8) (Nat.div_lt_of_lt_mul ho) (Nat.mod_lt o (by decide))
  exact ⟨_, _, hcol, hrow, haddr.trans (Nat.div_add_mod o 8)⟩

/-- Settles O26: shifts and masks are quotients and remainders, and module and place are the address's quotient and remainder
by 8. -/
theorem addrFormula : Obligations.AddrFormula := by
  intro cfg c r
  have hmodule := (addr_div_eight cfg c r).trans (digitModule_eq cfg c r)
  have hplace := (addr_mod_eight cfg c r).trans (digitPlace_eq c r)
  refine ⟨addr_eq_arith cfg c r, by omega, ⟨by omega, by omega, hmodule⟩, fun hmc hmr hc hr => ?_⟩
  have hlt : addr cfg c r < cfg.bufLen := addr_lt_bufLen (inRangeD_iff.mpr ⟨hc, hr⟩)
  exact ⟨hlt, hlt.trans (bufLen_lt_two_pow hmc hmr)⟩

/-! ## SETBYTE and GETBYTE (R83, R84) -/

section
variable {s : State} {c r : Nat}

/-- raise's answer changes nothing else (R161). -/
theorem onlyAnswered_respond (s : State) (st : Status) (d : Byte) : onlyAnswered s (s.respond st d) st d :=
  ⟨⟨rfl, rfl⟩, restUnchanged_answer s s.buf s.draws st d, rfl, rfl⟩

theorem inRangeD_eq_false {cfg : Config} (h : ¬ (c < cfg.digitCols ∧ r < cfg.digitRows)) : inRangeD cfg c r = false :=
  Bool.eq_false_iff.mpr fun hin => h (inRangeD_iff.mp hin)

/-- With FATAL set every command is answered ERR_FATAL (R165). -/
theorem exec_of_fatal (i : Instr) (hf : s.fatal = true) : exec i s = .next (s.respond .errFatal 0x00#8) := by
  cases i <;> exact if_pos hf

theorem execSetbyte_of_outOfRange (v : Byte) (hf : s.fatal = false) (hout : inRangeD s.cfg c r = false) :
    execSetbyte c r v s = .next (s.respond .errRange 0x00#8) := by
  simp [execSetbyte, hf, hout, raise]

theorem execGetbyte_of_outOfRange (hf : s.fatal = false) (hout : inRangeD s.cfg c r = false) :
    execGetbyte c r s = .next (s.respond .errRange 0x00#8) := by
  simp [execGetbyte, hf, hout, raise]

end

/-- Settles O36: the three ways SETBYTE answers; the last one stores at ADDR(C, R) alone. -/
theorem setbyteMeaning : Obligations.SetbyteMeaning := by
  intro c r v s
  refine ⟨fun hf => ?fatal, fun hf hout => ?range, fun hf hc hr hb => ?stored⟩
  case fatal => exact ⟨_, exec_of_fatal _ hf, onlyAnswered_respond s _ _⟩
  case range => exact ⟨_, execSetbyte_of_outOfRange v hf (inRangeD_eq_false hout), onlyAnswered_respond s _ _⟩
  case stored =>
    have hexec := execSetbyte_of_inRange v hf (inRangeD_iff.mpr ⟨hc, hr⟩)
    obtain ⟨hdata, hknown⟩ := Buffer.read_writeByte_same (o := addr s.cfg c r) (v := v) hb
    obtain ⟨hrest, hdraws, hframe⟩ := execSetbyte_frame hexec
    exact ⟨_, hexec, ⟨rfl, rfl⟩, hrest, hdraws, hdata, hknown, hframe⟩

/-- Settles O37: the three ways GETBYTE answers; the last one reads defined bits from the data and the others from the draw. -/
theorem getbyteMeaning : Obligations.GetbyteMeaning := by
  intro c r s
  refine ⟨fun hf => ?fatal, fun hf hout => ?range, fun hf hc hr hb => ?read⟩
  case fatal => exact ⟨_, exec_of_fatal _ hf, onlyAnswered_respond s _ _⟩
  case range => exact ⟨_, execGetbyte_of_outOfRange hf (inRangeD_eq_false hout), onlyAnswered_respond s _ _⟩
  case read =>
    have hexec := execGetbyte_of_inRange hf (inRangeD_iff.mpr ⟨hc, hr⟩)
    obtain ⟨hrest, hbuf⟩ := execGetbyte_frame hexec
    exact ⟨_, _, hexec, ⟨rfl, rfl⟩, hrest, hbuf, rfl, fun k hk => Buffer.getLsbD_value hk (Buffer.data_masked hb _)⟩

/-! ## Read after CLEAR and FILL (R84, R150, R151) -/

section
variable {s t : State}

theorem execFill_of_not_fatal (v : Byte) (hf : s.fatal = false) :
    execFill v s = .next ((s.bufWriteAll v).respond .ok 0x00#8) := by
  simp [execFill, hf]

/-- FILL leaves every byte wholly defined with its value, and GETBYTE answers such a byte. -/
theorem execGetbyte_after_execFill {c r : Nat} {v : Byte} (hb : Buffer.wf s.cfg.bufLen s.buf = true)
    (hf : s.fatal = false) (hin : inRangeD s.cfg c r = true) (h : execFill v s = .next t) :
    ∃ u, execGetbyte c r t = .next u ∧ answered t u .ok v := by
  obtain rfl := Host.Outcome.next.inj ((execFill_of_not_fatal v hf).symm.trans h)
  obtain ⟨hdata, hknown⟩ := Buffer.read_writeAll (v := v) hb (Nat.le_refl _) (addr s.cfg c r)
  rw [if_pos (addr_lt_bufLen hin)] at hdata hknown
  obtain ⟨u, hu, hans⟩ := execGetbyte_of_known (s := (s.bufWriteAll v).respond .ok 0x00#8) hf hin hknown
  exact ⟨u, hu, hdata ▸ hans⟩

end

/-- Settles O46: FILL's read after write, of which CLEAR's is the case V = 0x00. -/
theorem readAfterClearAndFill : Obligations.ReadAfterClearAndFill := by
  intro c r v s t hb hf hc hr
  have hin : inRangeD s.cfg c r = true := inRangeD_iff.mpr ⟨hc, hr⟩
  exact ⟨fun h => execGetbyte_after_execFill hb hf hin ((execClear_eq_execFill s).symm.trans h),
    fun h => execGetbyte_after_execFill hb hf hin h⟩

end Sys2Proof.Machine

/-! # The segment mapper and SETDOT (spec/41_segment_mapper.md R101 to R109) -/

namespace Sys2Proof.Machine

/-! ## The coordinates under a pixel (R102 to R104, R109) -/

section
variable {cfg : Config} {x y : Nat}

/-- The multiply-shift agrees with the division below its first exception (R102). -/
theorem rowDiv6_eq_div_six (hy : y < 515) : rowDiv6 y = y / 6 := by
  rw [rowDiv6_eq_div]
  omega

/-- R8's limit MR ≤ 42 keeps every pixel row below the divider's first exception (R102). -/
theorem rowDiv6_of_pixelRow (hmr : cfg.mr ≤ 42) (hy : y < cfg.pixelRows) : rowDiv6 y = y / 6 := by
  have hrows : cfg.pixelRows ≤ 42 * 12 := Nat.mul_le_mul_right 12 hmr
  exact rowDiv6_eq_div_six (by omega)

theorem localY_of_pixelRow (hmr : cfg.mr ≤ 42) (hy : y < cfg.pixelRows) : localY y = y % 6 := by
  rw [localY, rowDiv6_of_pixelRow hmr hy]
  omega

theorem compositeCode_lt {lx ly : Nat} (hx : lx < 4) (hy : ly < 6) : compositeCode lx ly < 24 := by
  rw [compositeCode_eq_add hx]
  omega

/-- The codes 24 to 31 never occur (R104). -/
theorem pixelCode_lt (hmr : cfg.mr ≤ 42) (hy : y < cfg.pixelRows) : pixelCode x y < 24 := by
  rw [pixelCode, localX_eq_mod, localY_of_pixelRow hmr hy]
  exact compositeCode_lt (Nat.mod_lt x (by decide)) (Nat.mod_lt y (by decide))

theorem digitModule_of_pixelCol (cfg : Config) (x r : Nat) :
    digitModule cfg (x >>> 2) r = (r >>> 1) * cfg.mc + (x >>> 4) := by
  rw [digitModule, ← Nat.shiftRight_add]

end

/-- Settles O28: the two divisions agree below 515, and every pixel row lies below it. -/
theorem rowDividerIsDivisionBySix : Obligations.RowDividerIsDivisionBySix :=
  ⟨fun _ => rowDiv6_eq_div_six, rfl, rfl, fun _ _ => rowDiv6_of_pixelRow⟩

/-- Settles O29: the digit lies in the grid, and the row divider is the division by 6. -/
theorem localCoordinates : Obligations.LocalCoordinates := by
  intro cfg x y hmr hx hy
  obtain ⟨hcol, hrow⟩ := inRangeD_iff.mp (pixel_inRangeD hmr (inRangeP_iff.mpr ⟨hx, hy⟩))
  have hsix : rowDiv6 y * 6 ≤ y := rowDiv6_of_pixelRow hmr hy ▸ Nat.div_mul_le_self y 6
  exact ⟨hcol, hrow, localX_eq_mod x, hsix, localY_of_pixelRow hmr hy⟩

/-- Settles O30: the code is lx + 4·ly, from which lx and ly are the remainder and the quotient by 4. -/
theorem compositeCodeIsABijection : Obligations.CompositeCodeIsABijection := by
  refine ⟨fun lx ly hx hy => ?code, fun lx ly lx' ly' hx _ hx' _ h => ?injective, fun z hz => ?surjective⟩
  case code => exact ⟨(compositeCode_eq_add hx).trans (Nat.add_comm _ _), compositeCode_lt hx hy⟩
  case injective =>
    rw [compositeCode_eq_add hx, compositeCode_eq_add hx'] at h
    omega
  case surjective =>
    have hx : z % 4 < 4 := Nat.mod_lt z (by decide)
    exact ⟨z % 4, z / 4, hx, by omega, (compositeCode_eq_add hx).trans (Nat.div_add_mod z 4)⟩

/-- Settles O32: the byte is place k of the digit's module, and (x >> 2) >> 2 is x >> 4. -/
theorem pixelTarget : Obligations.PixelTarget := by
  intro cfg x y hmr hx hy
  have hlt := digitModule_lt (pixel_inRangeD hmr (inRangeP_iff.mpr ⟨hx, hy⟩))
  rw [← digitModule_of_pixelCol]
  exact ⟨(addr_eq_bank cfg _ _).trans (congrArg (· + _) (Nat.mul_comm _ 8)), hlt⟩

/-! ## SEG_LOOKUP (R105) -/

section
variable {table : List SegEntry} {z k : Nat}

/-- A table misses when no entry's key is z. -/
theorem segLookup_eq_none_iff : segLookup table z = none ↔ ∀ entry ∈ table, entry.key ≠ z := by
  induction table with
  | nil => simp [segLookup]
  | cons entry rest ih =>
    by_cases hkey : entry.key = z
    · simp [segLookup, hkey]
    · simp [segLookup, hkey, ih]

/-- Entry 0 decides where its key is z; elsewhere the least match is one past that of the rest of the table. -/
theorem segLookup_eq_some_iff : segLookup table z = some k ↔
    ∃ e : Nat, table[e]? = some ⟨z, k⟩ ∧ ∀ e' < e, ∀ entry, table[e']? = some entry → entry.key ≠ z := by
  induction table with
  | nil => simp [segLookup]
  | cons entry rest ih =>
    rw [← Nat.or_exists_add_one]
    simp only [Nat.forall_lt_succ_left]
    by_cases hkey : entry.key = z
    · obtain ⟨key, bit⟩ := entry
      obtain rfl : key = z := hkey
      simp [segLookup]
    · have hne : entry ≠ ⟨z, k⟩ := fun h => hkey (h ▸ rfl)
      simp [segLookup, hkey, ih, hne]

end

/-- Settles O31: the search for the first match, the table's check, and the bound on an in-range pixel's code. -/
theorem segLookupIsFirstMatch : Obligations.SegLookupIsFirstMatch := by
  refine ⟨fun _ _ _ => segLookup_eq_some_iff, fun _ _ => segLookup_eq_none_iff, fun cfg hc => ?_⟩
  obtain ⟨hdim, htable, -⟩ := wellFormed_iff.mp hc
  obtain ⟨-, -, -, hmr⟩ := dimensionsOk_iff.mp hdim
  obtain ⟨hlen, hentries⟩ := segTableOk_iff.mp htable
  exact ⟨hlen, fun entry he => (hentries entry he).imp_right Nat.le_of_lt_succ, fun _ _ _ hy => pixelCode_lt hmr hy⟩

/-! ## SETDOT (R106 to R108) -/

section
variable {s t : State} {x y b : Nat}

theorem inRangeP_eq_false {cfg : Config} (h : ¬ (x < cfg.pixelCols ∧ y < cfg.pixelRows)) : inRangeP cfg x y = false :=
  Bool.eq_false_iff.mpr fun hin => h (inRangeP_iff.mp hin)

/-- Out of range and at a table miss SETDOT is a silent no-op (R100, R105). -/
theorem execSetdot_of_noTarget (f : Bool) (hf : s.fatal = false)
    (h : inRangeP s.cfg x y = false ∨ segLookup s.cfg.segTable (pixelCode x y) = none) :
    execSetdot x y f s = .next (s.respond .ok 0x00#8) := by
  rcases h with hout | hmiss
  · simp [execSetdot, hf, hout]
  · simp [execSetdot, hf, hmiss]

theorem execSetdot_of_hit (f : Bool) (hf : s.fatal = false) (hin : inRangeP s.cfg x y = true)
    (ho : pixelOffset s.cfg x y < s.cfg.bufLen) (hhit : segLookup s.cfg.segTable (pixelCode x y) = some b) :
    execSetdot x y f s = .next ({ s with buf := s.buf.writeBit (pixelOffset s.cfg x y) b f }.respond .ok 0x00#8) := by
  simp [execSetdot, State.bufWriteBit, hf, hin, ho, hhit]

theorem pixelOffset_lt_of_wellFormed {cfg : Config} (hc : cfg.wellFormed = true) (hin : inRangeP cfg x y = true) :
    pixelOffset cfg x y < cfg.bufLen := by
  obtain ⟨-, -, -, hmr⟩ := dimensionsOk_iff.mp (wellFormed_iff.mp hc).1
  exact pixelOffset_lt_bufLen hmr hin

/-- In a well-formed configuration a hit never names bit 7 (R105). -/
theorem segLookup_lt_of_wellFormed {cfg : Config} {z : Nat} (hc : cfg.wellFormed = true)
    (hhit : segLookup cfg.segTable z = some b) : b < 7 := segLookup_lt (wellFormed_iff.mp hc).2.1 hhit

/-- BufWriteBit on every bit of its byte: the bit written takes the value and is defined, the others stay (R12). -/
theorem Buffer.getLsbD_writeBit_eq_ite {len : Nat} {buf : Buffer} (hb : Buffer.wf len buf = true) (o : Nat) (f : Bool)
    {k : Nat} (hk : k < 8) :
    (Memory.read (buf.writeBit o b f).data o).getLsbD k = (if k = b then f else (Memory.read buf.data o).getLsbD k) ∧
    (Memory.read (buf.writeBit o b f).known o).getLsbD k =
      (if k = b then true else (Memory.read buf.known o).getLsbD k) := by
  obtain ⟨hdata, hknown⟩ := Buffer.getLsbD_writeBit (o := o) (k := b) (v := f) hb hk
  exact ⟨hdata, by simpa using hknown⟩

theorem execSetdot_keeps_wf {f : Bool} (hb : Buffer.wf s.cfg.bufLen s.buf = true) (h : execSetdot x y f s = .next t) :
    Buffer.wf t.cfg.bufLen t.buf = true := by
  rcases execSetdot_cases h with ⟨-, rfl⟩ | ⟨-, -, rfl⟩ | ⟨-, -, ho, k, -, rfl⟩
  · exact hb
  · exact hb
  · exact Buffer.writeBit_wf hb ho

/-- After a hit on bit b, that bit of the pixel's byte holds F and is defined. -/
theorem execSetdot_targetBit {f : Bool} (hc : s.cfg.wellFormed = true) (hb : Buffer.wf s.cfg.bufLen s.buf = true)
    (hf : s.fatal = false) (hin : inRangeP s.cfg x y = true)
    (hhit : segLookup s.cfg.segTable (pixelCode x y) = some b) (h : execSetdot x y f s = .next t) :
    (Memory.read t.buf.data (pixelOffset s.cfg x y)).getLsbD b = f ∧
    (Memory.read t.buf.known (pixelOffset s.cfg x y)).getLsbD b = true := by
  have hexec := execSetdot_of_hit f hf hin (pixelOffset_lt_of_wellFormed hc hin) hhit
  obtain rfl := Host.Outcome.next.inj (hexec.symm.trans h)
  have hlt : b < 8 := (segLookup_lt_of_wellFormed hc hhit).trans (by decide)
  simpa using Buffer.getLsbD_writeBit_eq_ite (b := b) hb (pixelOffset s.cfg x y) f hlt

end

/-- Settles O38: FATAL, the two silent no-ops, and the hit, which stores one bit at the pixel's byte alone. -/
theorem setdotMeaning : Obligations.SetdotMeaning := by
  intro x y f s hc
  refine ⟨fun hf => ?fatal, fun hf hout => ?outOfRange, fun hf hmiss => ?miss, fun b hf hx hy hb hhit => ?hit⟩
  case fatal => exact ⟨_, exec_of_fatal _ hf, onlyAnswered_respond s _ _⟩
  case outOfRange =>
    exact ⟨_, execSetdot_of_noTarget f hf (.inl (inRangeP_eq_false hout)), onlyAnswered_respond s _ _⟩
  case miss => exact ⟨_, execSetdot_of_noTarget f hf (.inr hmiss), onlyAnswered_respond s _ _⟩
  case hit =>
    have hin : inRangeP s.cfg x y = true := inRangeP_iff.mpr ⟨hx, hy⟩
    have hexec := execSetdot_of_hit f hf hin (pixelOffset_lt_of_wellFormed hc hin) hhit
    obtain ⟨hrest, hdraws, hframe⟩ := execSetdot_frame hexec
    exact ⟨segLookup_lt_of_wellFormed hc hhit, _, hexec, ⟨rfl, rfl⟩, hrest, hdraws, hframe,
      fun _ hk => Buffer.getLsbD_writeBit_eq_ite hb (pixelOffset s.cfg x y) f hk⟩

/-- Settles O43: a SETDOT that stores, stores the bit its table entry names. -/
theorem setdotWritesAtMostOneBit : Obligations.SetdotWritesAtMostOneBit := by
  intro x y f s t hc hb h
  obtain ⟨-, -, hframe⟩ := execSetdot_frame h
  refine ⟨hframe, ?_⟩
  rcases execSetdot_cases h with ⟨-, rfl⟩ | ⟨-, -, rfl⟩ | ⟨-, -, -, b, hhit, rfl⟩
  · exact ⟨0, by decide, fun _ _ _ => ⟨rfl, rfl⟩⟩
  · exact ⟨0, by decide, fun _ _ _ => ⟨rfl, rfl⟩⟩
  · refine ⟨b, segLookup_lt_of_wellFormed hc hhit, fun k hk hkb => ?_⟩
    obtain ⟨hdata, hknown⟩ := Buffer.getLsbD_writeBit_eq_ite (b := b) hb (pixelOffset s.cfg x y) f hk
    exact ⟨hdata.trans (if_neg hkb), hknown.trans (if_neg hkb)⟩

/-- Settles O44: the second SETDOT writes the bit false and defined, whatever the first left, and a pixel with no target stores
nothing. -/
theorem dotRoundTrip : Obligations.DotRoundTrip := by
  refine ⟨fun x y b s t u hs hf hx hy hhit hset hclear => ?cleared, fun x y f s t hnone h => ?unchanged⟩
  case cleared =>
    have hin : inRangeP s.cfg x y = true := inRangeP_iff.mpr ⟨hx, hy⟩
    obtain ⟨⟨hcfg, hfatal, -⟩, -, -⟩ := execSetdot_frame hset
    have hwf := execSetdot_keeps_wf hs.bufOk hset
    rw [← hcfg] at hin hhit ⊢
    exact execSetdot_targetBit (hcfg ▸ hs.cfgOk) hwf (hfatal.trans hf) hin hhit hclear
  case unchanged =>
    rcases execSetdot_cases h with ⟨-, rfl⟩ | ⟨-, -, rfl⟩ | ⟨-, hin, -, k, hhit, -⟩
    · rfl
    · rfl
    · rcases hnone with hmiss | hout
      · simp [hmiss] at hhit
      · exact absurd (inRangeP_iff.mp hin) hout

end Sys2Proof.Machine

/-! # UPDATE and the plane/slot sequencer (spec/42_frame_serializer.md R121 to R130) -/

namespace Sys2Proof.Machine

/-! ## The values of SERP(G) (R121 to R123) -/

section
variable {g j : Nat}

theorem serpentine_of_even (n : Nat) (hg : 1 ≤ g) (h : j / g % 2 = 0) : serpentine g n j = (n : Int) - 1 - j := by
  rw [serpentine_eq_sub_raw n j hg, serpentineRaw_of_even h]

/-- In an odd group slot j = qg + k is sent from raw place qg + g - 1 - k, so j enters with the other sign (R123). -/
theorem serpentine_of_odd (n : Nat) (hg : 1 ≤ g) (h : j / g % 2 = 1) :
    serpentine g n j = (n : Int) - 2 * (j / g : Nat) * g - g + j := by
  have hlt := Nat.mod_lt j hg
  have hj := Nat.div_add_mod' j g
  have hcast : (2 * (j / g : Nat) * g : Int) = 2 * (j / g * g : Nat) := by push_cast; ring
  rw [serpentine_eq_sub_raw n j hg, serpentineRaw_of_odd h, hcast]
  omega

end

/-- Settles O33: SERP(G) is always injective, so R122's condition is that its values stay in [0, N). -/
theorem serpentineBijectionCondition : Obligations.SerpentineBijectionCondition := by
  intro g n hg
  have hinj : ∀ j < n, ∀ k < n, serpentine g n j = serpentine g n k → j = k :=
    fun j _ k _ h => serpentine_injective n hg h
  rw [and_iff_left hinj]
  exact serpentine_inRange_forall_iff n hg

/-- Settles O34: the two forms of SERP(G), of which slots 0 to 9 of SERP(10) take the even one. -/
theorem serpentineValues : Obligations.SerpentineValues := by
  refine ⟨fun g n j hg h => serpentine_of_even n hg h, fun g n j hg h => serpentine_of_odd n hg h, ?_, by decide⟩
  intro n hn j hj
  exact serpentine_of_even n (by decide) (by omega)

/-! ## UPDATE's acceptance (R127) -/

section
variable {s : State}

theorem execUpdate_of_running (hf : s.fatal = false) : execUpdate s = .next (updateStarted s) := by
  simp [execUpdate, hf, updateStarted, State.offer]

/-- With FATAL set UPDATE is refused (R165). -/
theorem execUpdate_of_fatal (hf : s.fatal = true) : execUpdate s = .next (s.respond .errFatal 0x00#8) := by
  simp [execUpdate, hf, raise]

end

/-- Settles O41: the two branches of UPDATE's acceptance, field by field. -/
theorem updateStarts : Obligations.UpdateStarts := fun s =>
  ⟨fun hf => ⟨_, execUpdate_of_fatal hf, ⟨rfl, rfl⟩, restUnchanged_answer s s.buf s.draws _ _, rfl, rfl⟩,
    fun hf => ⟨_, execUpdate_of_running hf, rfl, rfl, rfl, rfl, rfl, rfl, rfl, rfl, rfl, rfl, rfl, rfl, rfl⟩⟩

/-! ## What a step leaves offered (R129, R130) -/

section
variable {s t : State}

theorem cleanupAnswered_tx_ne_acquire (ev : TxEvent) (s : State) : (cleanupAnswered ev s).tx ≠ some .acquire := by
  rcases cleanupAnswered_cases ev s with ⟨-, heq⟩ | ⟨-, heq⟩ <;> simp [heq]

theorem txFail_tx_ne_acquire (ev : TxEvent) (s : State) : (txFail ev s).tx ≠ some .acquire := by
  rcases txFail_cases ev s with ⟨-, heq⟩ | ⟨-, heq⟩ | ⟨-, heq⟩ <;> simp [heq]

/-- An accepted event leads to ACQUIRE only if it is the RELEASE of the plane before (R130). -/
theorem eventAccepted_opens_frame {ev : TxEvent} (h : eventAccepted ev s = .next t) (ht : t.tx = some .acquire) :
    ev = .release ∧ t.ser = { s.ser with owned := false, plane := s.ser.plane + 1, slot := 0, half := .addr } ∧
      t.txOut = s.txOut := by
  rcases eventAccepted_cases h with ⟨-, rfl⟩ | ⟨-, rfl⟩ | ⟨_, -, -, _, -, -, rfl⟩ | ⟨_, -, -, -, rfl⟩ | ⟨_, -, -, -, rfl⟩ |
    ⟨-, rfl⟩ | ⟨hev, -, rfl⟩ | ⟨-, -, rfl⟩
  · simp at ht
  · simp at ht
  · simp at ht
  · simp at ht
  · simp at ht
  · simp at ht
  · exact ⟨hev, rfl, rfl⟩
  · simp at ht

/-- The Transport's turn newly offers ACQUIRE only on accepting RELEASE. -/
theorem transportTurn_opens_frame {ev : TxEvent} (h : transportTurn ev s = .next t) (hs : s.tx ≠ some .acquire)
    (ht : t.tx = some .acquire) :
    s.cleanup = false ∧ ev = .release ∧ t.txOut = s.txOut ++ [⟨.release, .accept⟩] ∧
      t.ser = { s.ser with owned := false, plane := s.ser.plane + 1, slot := 0, half := .addr } := by
  rcases transportTurn_cases h with ⟨-, rfl⟩ | ⟨rest, -, rfl⟩ | ⟨a, rest, -, hans⟩
  · exact absurd ht hs
  · exact absurd ht hs
  · rcases eventAnswered_cases hans with ⟨-, rfl⟩ | ⟨hc, rfl, hacc⟩ | ⟨-, -, rfl⟩
    · exact absurd ht (cleanupAnswered_tx_ne_acquire _ _)
    · obtain ⟨rfl, hser, hout⟩ := eventAccepted_opens_frame hacc ht
      exact ⟨hc, rfl, hout, hser⟩
    · exact absurd ht (txFail_tx_ne_acquire _ _)

end

/-- Settles O48: of the turns only a word accepted and the Transport's offer ACQUIRE newly, an UPDATE started at plane 0 and
RELEASE accepted. -/
theorem nextFrameOpensAfterRelease : Obligations.NextFrameOpensAfterRelease := by
  intro s t hs h hne ht
  rcases step_turn_cases h with ⟨rest, -, rfl⟩ | ⟨ev, htx, hturn⟩ | ⟨-, rfl⟩ | ⟨htx, w, rest, -, hword⟩
  · simp at ht
  · obtain ⟨hc, rfl, hout, hser⟩ := transportTurn_opens_frame hturn hne ht
    obtain ⟨-, -, hcs⟩ := (inv_iff_running htx hc).mp hs
    exact .inr ⟨htx, hout, by rw [hser], by rw [hser], by rw [hser]; exact hcs⟩
  · exact absurd ht hne
  · rcases runWord_answers_or_starts hword with ⟨b, n, st, d, -, rfl⟩ | ⟨-, rfl⟩
    · exact absurd ht hne
    · exact .inl ⟨htx, rfl⟩

/-- Settles O49: the step keeps the invariant, by which an address byte offered is i + 1 with i < 8. -/
theorem addressBytesAreDigitRegisters : Obligations.AddressBytesAreDigitRegisters := by
  intro s t v hs h htx hc hhalf
  obtain ⟨⟨-, -, -, -, -, hplane, -⟩, -, -, haddr, -⟩ := (inv_iff_running htx hc).mp (stepKeepsTheInvariant s t hs h)
  have hv : v.toNat = t.ser.plane + 1 := by
    rw [haddr hhalf, BitVec.toNat_ofNat]
    omega
  omega

/-! ## An exchange with the Transport: the events offered and their answers (R125)

What the Transport's answers do to the block does not depend on RST's coming levels, on the answers still to come or on what
has been exchanged. `exchanges` says which events a block offers and where it arrives, whatever these three are; a run then
takes the block through the exchange, with any stall before any answer. -/

/-- The state with other coming levels of RST, other coming answers and another record of what was exchanged. -/
def State.withTransport (s : State) (rst : List Bool) (ans : List (Option TxAnswer)) (out : List TxRecord) : State :=
  { s with rstIn := rst, txAns := ans, txOut := out }

/-- From s the block offers the events recorded in turn and, each answered as recorded, arrives at t. -/
def exchanges : List TxRecord → State → State → Prop
  | [], s, t => s = t
  | r :: rs, s, u => s.tx = some r.event ∧ ∃ t, eventAnswered r.event r.answer s = .next t ∧ exchanges rs t u

/-- An event the Transport accepts. -/
def accepted (ev : TxEvent) : TxRecord := ⟨ev, .accept⟩

section
variable {s t u : State} {rs : List TxRecord} {ev : TxEvent} {evs : List TxEvent}

@[simp] theorem exchanges_nil : exchanges [] s t ↔ s = t := Iff.rfl

theorem exchanges_cons {r : TxRecord} :
    exchanges (r :: rs) s u ↔ s.tx = some r.event ∧ ∃ t, eventAnswered r.event r.answer s = .next t ∧ exchanges rs t u :=
  Iff.rfl

theorem map_answer_accepted (evs : List TxEvent) :
    (evs.map accepted).map TxRecord.answer = List.replicate evs.length .accept := by
  rw [List.map_map]
  exact List.map_const'

theorem map_answer_zipWith {answers : List TxAnswer} (h : answers.length = evs.length) :
    (List.zipWith TxRecord.mk evs answers).map TxRecord.answer = answers := by
  rw [← List.map_uncurry_zip_eq_zipWith, List.map_map]
  exact List.map_snd_zip h.le

theorem exchanges_append {rs₁ rs₂ : List TxRecord} :
    exchanges (rs₁ ++ rs₂) s u ↔ ∃ t, exchanges rs₁ s t ∧ exchanges rs₂ t u := by
  induction rs₁ generalizing s with
  | nil => simp
  | cons r rs₁ ih => simp only [List.cons_append, exchanges_cons, ih]; tauto

theorem exchanges.trans {rs₁ rs₂ : List TxRecord} (h₁ : exchanges rs₁ s t) (h₂ : exchanges rs₂ t u) :
    exchanges (rs₁ ++ rs₂) s u := exchanges_append.mpr ⟨t, h₁, h₂⟩

/-- The events of n steps of a loop, and then those of the next. -/
theorem exchanges.flatMap_range_succ {f : Nat → List TxEvent} {n : Nat}
    (h₁ : exchanges (((List.range n).flatMap f).map accepted) s t) (h₂ : exchanges ((f n).map accepted) t u) :
    exchanges (((List.range (n + 1)).flatMap f).map accepted) s u := by
  rw [List.range_succ, List.flatMap_append, List.map_append, List.flatMap_singleton]
  exact h₁.trans h₂

theorem eventAnswered_accept (hc : s.cleanup = false) : eventAnswered ev .accept s = eventAccepted ev s := by
  simp [eventAnswered, hc]

theorem eventAnswered_fail (hc : s.cleanup = false) : eventAnswered ev .fail s = .next (txFail ev s) := by
  simp [eventAnswered, hc]

theorem eventAnswered_cleanup (a : TxAnswer) (hc : s.cleanup = true) :
    eventAnswered ev a s = .next (cleanupAnswered ev s) := by
  simp [eventAnswered, hc]

/-- One event accepted, and what follows it. -/
theorem exchanges.cons_accepted (htx : s.tx = some ev) (hc : s.cleanup = false) (h : eventAccepted ev s = .next t)
    (ht : exchanges (evs.map accepted) t u) : exchanges ((ev :: evs).map accepted) s u :=
  ⟨htx, t, (eventAnswered_accept hc).trans h, ht⟩

/-! ### An exchange is independent of the Transport's side -/

theorem offerDataByte_withTransport (h : offerDataByte s = .next t) (rst : List Bool) (ans : List (Option TxAnswer))
    (out : List TxRecord) : offerDataByte (s.withTransport rst ans out) = .next (t.withTransport rst ans out) := by
  obtain ⟨d, hd, ho, rfl⟩ := offerDataByte_cases h
  simp [offerDataByte, State.bufRead, State.withTransport, State.offer, hd, ho]

theorem eventAccepted_withTransport (h : eventAccepted ev s = .next t) (rst : List Bool) (ans : List (Option TxAnswer))
    (out : List TxRecord) : eventAccepted ev (s.withTransport rst ans out) = .next (t.withTransport rst ans out) := by
  rcases eventAccepted_cases h with ⟨rfl, rfl⟩ | ⟨rfl, rfl⟩ | ⟨v, rfl, hh, d, hd, ho, rfl⟩ | ⟨v, rfl, hh, hj, rfl⟩ |
    ⟨v, rfl, hh, hj, rfl⟩ | ⟨rfl, rfl⟩ | ⟨rfl, hi, rfl⟩ | ⟨rfl, hi, rfl⟩
  · rfl
  · rfl
  · simp only [eventAccepted, hh] at h
    simp only [eventAccepted, State.withTransport, hh]
    exact offerDataByte_withTransport h rst ans out
  · simp [eventAccepted, State.withTransport, offerAddressByte, State.offer, hh, hj]
  · simp [eventAccepted, State.withTransport, State.offer, hh, hj]
  · rfl
  · simp [eventAccepted, State.withTransport, State.offer, hi]
  · simp [eventAccepted, State.withTransport, State.finishUpdate, State.respond, hi]

theorem txFail_withTransport (ev : TxEvent) (s : State) (rst : List Bool) (ans : List (Option TxAnswer))
    (out : List TxRecord) : txFail ev (s.withTransport rst ans out) = (txFail ev s).withTransport rst ans out := by
  cases ev <;> rfl

theorem cleanupAnswered_withTransport (ev : TxEvent) (s : State) (rst : List Bool) (ans : List (Option TxAnswer))
    (out : List TxRecord) :
    cleanupAnswered ev (s.withTransport rst ans out) = (cleanupAnswered ev s).withTransport rst ans out := by
  cases ev <;> rfl

theorem eventAnswered_withTransport {a : TxAnswer} (h : eventAnswered ev a s = .next t) (rst : List Bool)
    (ans : List (Option TxAnswer)) (out : List TxRecord) :
    eventAnswered ev a (s.withTransport rst ans out) = .next (t.withTransport rst ans out) := by
  rcases eventAnswered_cases h with ⟨hc, rfl⟩ | ⟨hc, rfl, hacc⟩ | ⟨hc, rfl, rfl⟩
  · exact (eventAnswered_cleanup (s := s.withTransport rst ans out) a hc).trans
      (congrArg _ (cleanupAnswered_withTransport ev s rst ans out))
  · exact (eventAnswered_accept (s := s.withTransport rst ans out) hc).trans (eventAccepted_withTransport hacc rst ans out)
  · exact (eventAnswered_fail (s := s.withTransport rst ans out) hc).trans
      (congrArg _ (txFail_withTransport ev s rst ans out))

/-! ### A run through an exchange -/

/-- The Transport answers the event offered after a stall of n steps. -/
theorem run_answer {a : TxAnswer} (hwf : s.cfg.wellFormed = true) (htx : s.tx = some ev)
    (h : eventAnswered ev a s = .next t) (n : Nat) {rst : List Bool} (hr : true ∉ rst) (more : List (Option TxAnswer))
    (out : List TxRecord) :
    Sys2Proof.core.run (n + 1) (s.withTransport rst (List.replicate n none ++ some a :: more) out) =
      .next (t.withTransport (rst.drop (n + 1)) more (out ++ [⟨ev, a⟩])) := by
  have hstall := run_stall (s := s.withTransport rst (List.replicate n none ++ some a :: more) out) n hwf hr htx rfl
  have hanswer := step_of_answer (s := s.withTransport (rst.drop n) (some a :: more) out) hwf
    (fun hd => hr (List.mem_of_mem_drop (List.mem_of_mem_head? hd))) htx rfl
  refine (run_add hstall).trans (run_one (hanswer.trans ?_))
  rw [← List.tail_drop]
  exact eventAnswered_withTransport h _ _ _

/-- A run takes the block through an exchange, its answers each after any stall (R125, R170). -/
theorem run_exchange {answers : List (Nat × TxAnswer)} (hwf : s.cfg.wellFormed = true) (h : exchanges rs s u)
    (hans : answers.map Prod.snd = rs.map TxRecord.answer) {rst : List Bool} (hr : true ∉ rst)
    (more : List (Option TxAnswer)) (out : List TxRecord) :
    ∃ rst', Sys2Proof.core.run (stalledAnswers answers).length (s.withTransport rst (stalledAnswers answers ++ more) out) =
      .next (u.withTransport rst' more (out ++ rs)) := by
  induction rs generalizing s answers rst out with
  | nil =>
    obtain rfl : answers = [] := by simpa using hans
    obtain rfl : s = u := h
    exact ⟨rst, by simp⟩
  | cons r rs ih =>
    obtain ⟨htx, t, hfirst, hrest⟩ := h
    obtain ⟨hcfg, -, -⟩ := eventAnswered_frame hfirst
    obtain ⟨⟨n, a⟩, answers, rfl, rfl, htail⟩ := List.map_eq_cons_iff.mp hans
    have hone := run_answer hwf htx hfirst n hr (stalledAnswers answers ++ more) out
    obtain ⟨rst', hrun⟩ := ih (hcfg ▸ hwf) hrest htail (fun hd => hr (List.mem_of_mem_drop hd)) (out ++ [r])
    refine ⟨rst', ?_⟩
    have hlen : (stalledAnswers ((n, r.answer) :: answers)).length = (n + 1) + (stalledAnswers answers).length := by
      simp [Nat.add_assoc, Nat.add_comm]
    rw [hlen, stalledAnswers_cons, List.append_assoc, List.cons_append, run_add hone, hrun, List.append_assoc]
    rfl

/-! ### What an accepted exchange leaves as it was -/

/-- A block that offers an event after an exchange offered one before it. -/
theorem exchanges.offered_before (h : exchanges rs s t) (ht : t.tx.isSome = true) : s.tx.isSome = true := by
  cases rs with
  | nil => obtain rfl : s = t := h; exact ht
  | cons r rs => obtain ⟨htx, -⟩ := h; simp [htx]

/-- Accepted events leave configuration, buffer and words waiting, begin no cleanup, and answer nothing while another event
is offered. -/
theorem exchanges.accepted_frame (h : exchanges (evs.map accepted) s t) (hc : s.cleanup = false) :
    transferFrame s t ∧ t.cleanup = false ∧ (t.tx.isSome = true → t.rspOut = s.rspOut) := by
  induction evs generalizing s with
  | nil => obtain rfl : s = t := h; exact ⟨⟨rfl, rfl, rfl⟩, hc, fun _ => rfl⟩
  | cons ev evs ih =>
    obtain ⟨-, s', hans, hrest⟩ := h
    have hacc : eventAccepted ev s = .next s' := (eventAnswered_accept hc).symm.trans hans
    obtain ⟨⟨hcfg, hbuf, hcmd⟩, -, hclean⟩ := eventAccepted_frame hacc
    obtain ⟨⟨hcfg', hbuf', hcmd'⟩, hclean', hrsp⟩ := ih hrest (hclean.trans hc)
    refine ⟨⟨hcfg'.trans hcfg, hbuf'.trans hbuf, hcmd'.trans hcmd⟩, hclean', fun ht => (hrsp ht).trans ?_⟩
    rcases eventAccepted_goesOnOrAnswers hacc with ⟨-, hsame⟩ | ⟨hnone, -⟩
    · exact hsame
    · simp [hrest.offered_before ht] at hnone

end

/-! ## The exchange of a whole UPDATE (R127, R128) -/

/-- An UPDATE begun in s has come to offer ev, with this progress in SER and n bytes read. -/
def updateOffers (s : State) (ev : TxEvent) (ser : Ser) (n : Nat) : State :=
  { s with port := .busy, cleanup := false, tx := some ev, ser := ser, draws := s.draws + n }

/-- Plane i's ACQUIRE is offered. -/
def frameOpens (s : State) (i : Nat) (cs : CsLevel) (owned : Bool) : State :=
  updateOffers s .acquire ⟨.run, i, 0, .addr, cs, owned⟩ (i * s.cfg.numModules)

/-- The address byte of slot j of plane i is offered. -/
def addressOffered (s : State) (i j : Nat) : State :=
  updateOffers s (.byte (BitVec.ofNat 8 (i + 1))) ⟨.run, i, j, .addr, .asserted, true⟩ (i * s.cfg.numModules + j)

/-- The data byte of slot j of plane i is offered. -/
def dataOffered (s : State) (i j : Nat) : State :=
  updateOffers s (.byte (sentByte s i j)) ⟨.run, i, j, .data, .asserted, true⟩ (i * s.cfg.numModules + (j + 1))

/-- Plane i's CS_DEASSERT is offered, its slots all sent. -/
def slotsSent (s : State) (i : Nat) : State :=
  updateOffers s .csDeassert ⟨.run, i, s.cfg.numModules - 1, .data, .asserted, true⟩ ((i + 1) * s.cfg.numModules)

/-- Plane i's RELEASE is offered. -/
def frameCloses (s : State) (i : Nat) : State :=
  updateOffers s .release ⟨.run, i, s.cfg.numModules - 1, .data, .deasserted, true⟩ ((i + 1) * s.cfg.numModules)

/-- Plane 7's RELEASE is accepted: the UPDATE has answered OK. -/
def updateFinished (s : State) : State :=
  { frameCloses s 7 with ser := ⟨.run, 7, s.cfg.numModules - 1, .data, .deasserted, false⟩ }.finishUpdate

section
variable {s : State} {i j : Nat}

theorem updateStarted_eq_frameOpens (s : State) : updateStarted s = frameOpens s 0 s.ser.cs s.ser.owned := by
  simp [updateStarted, frameOpens, updateOffers]

/-- The address byte accepted, the slot's data byte is read and offered (R127). -/
theorem eventAccepted_addressByte (hwf : s.cfg.wellFormed = true) (hi : i < 8) (hj : j < s.cfg.numModules) (v : Byte) :
    eventAccepted (.byte v) (addressOffered s i j) = .next (dataOffered s i j) := by
  obtain ⟨d, hd, hnext⟩ := offerDataByte_next
    (s := { addressOffered s i j with ser := ⟨.run, i, j, .data, .asserted, true⟩ }) hwf hj hi
  have hbyte : sentByte s i j = s.buf.value (d * 8 + i) (Config.freeByte (s.draws + (i * s.cfg.numModules + j))) := by
    change displayIndex s.cfg j = some d at hd
    rw [sentByte, hd, Option.getD_some]
  refine Eq.trans hnext ?_
  rw [dataOffered, hbyte]
  rfl

theorem eventAccepted_dataByte_next (hj : j + 1 < s.cfg.numModules) (v : Byte) :
    eventAccepted (.byte v) (dataOffered s i j) = .next (addressOffered s i (j + 1)) := by
  simp only [eventAccepted, dataOffered, updateOffers, hj, if_true]
  rfl

theorem eventAccepted_dataByte_last (hj : j + 1 = s.cfg.numModules) (v : Byte) :
    eventAccepted (.byte v) (dataOffered s i j) = .next (slotsSent s i) := by
  simp [eventAccepted, dataOffered, slotsSent, updateOffers, State.offer, ← hj, Nat.add_one_mul]

theorem eventAccepted_release_next (hi : i + 1 < 8) :
    eventAccepted .release (frameCloses s i) = .next (frameOpens s (i + 1) .deasserted false) := by
  simp only [eventAccepted, frameCloses, updateOffers, hi, if_true]
  rfl

/-- Both bytes of a slot's command are accepted. -/
theorem exchanges_slotCommand {t : State} (hwf : s.cfg.wellFormed = true) (hi : i < 8) (hj : j < s.cfg.numModules)
    (h : eventAccepted (.byte (sentByte s i j)) (dataOffered s i j) = .next t) :
    exchanges ((slotCommand s i j).map accepted) (addressOffered s i j) t :=
  .cons_accepted rfl rfl (eventAccepted_addressByte hwf hi hj _) (.cons_accepted (evs := []) rfl rfl h rfl)

/-- Plane i up to slot j (R127). -/
theorem exchanges_slots (hwf : s.cfg.wellFormed = true) (hi : i < 8) (hj : j < s.cfg.numModules) :
    exchanges (((List.range j).flatMap (slotCommand s i)).map accepted) (addressOffered s i 0) (addressOffered s i j) := by
  induction j with
  | zero => rfl
  | succ j ih =>
    have hlt : j < s.cfg.numModules := Nat.lt_of_succ_lt hj
    exact (ih hlt).flatMap_range_succ (exchanges_slotCommand hwf hi hlt (eventAccepted_dataByte_next hj _))

theorem exchanges_allSlots (hwf : s.cfg.wellFormed = true) (hi : i < 8) :
    exchanges (((List.range s.cfg.numModules).flatMap (slotCommand s i)).map accepted) (addressOffered s i 0)
      (slotsSent s i) := by
  obtain ⟨j, hj⟩ := Nat.exists_eq_add_one.mpr (numModules_pos hwf)
  have hlt : j < s.cfg.numModules := by omega
  rw [hj]
  exact (exchanges_slots hwf hi hlt).flatMap_range_succ
    (exchanges_slotCommand hwf hi hlt (eventAccepted_dataByte_last hj.symm _))

/-- Frame i, whatever its RELEASE leads to (R124). -/
theorem exchanges_planeFrame {t : State} (hwf : s.cfg.wellFormed = true) (hi : i < 8) (cs : CsLevel) (owned : Bool)
    (h : eventAccepted .release (frameCloses s i) = .next t) :
    exchanges ((planeFrame s i).map accepted) (frameOpens s i cs owned) t := by
  have hopen : exchanges ([TxEvent.acquire, .csAssert].map accepted) (frameOpens s i cs owned) (addressOffered s i 0) :=
    .cons_accepted rfl rfl rfl (.cons_accepted (evs := []) rfl rfl rfl rfl)
  have hclose : exchanges ([TxEvent.csDeassert, .release].map accepted) (slotsSent s i) t :=
    .cons_accepted rfl rfl rfl (.cons_accepted (evs := []) rfl rfl h rfl)
  rw [planeFrame, List.map_append, List.map_append]
  exact (hopen.trans (exchanges_allSlots hwf hi)).trans hclose

/-- The frames before plane i; only plane 0 is opened with chip-select and access as the UPDATE found them. -/
theorem exchanges_frames (hwf : s.cfg.wellFormed = true) (hi : i < 8) :
    ∃ cs owned, exchanges (((List.range i).flatMap (planeFrame s)).map accepted) (updateStarted s)
      (frameOpens s i cs owned) := by
  induction i with
  | zero => exact ⟨_, _, updateStarted_eq_frameOpens s⟩
  | succ i ih =>
    have hlt : i < 8 := Nat.lt_of_succ_lt hi
    obtain ⟨cs, owned, hbefore⟩ := ih hlt
    exact ⟨.deasserted, false,
      hbefore.flatMap_range_succ (exchanges_planeFrame hwf hlt cs owned (eventAccepted_release_next hi))⟩

/-- The eight frames of an UPDATE, all accepted (R128). -/
theorem exchanges_updateEvents (hwf : s.cfg.wellFormed = true) :
    exchanges ((updateEvents s).map accepted) (updateStarted s) (updateFinished s) := by
  obtain ⟨cs, owned, hbefore⟩ := exchanges_frames (i := 7) hwf (by decide)
  exact hbefore.flatMap_range_succ (exchanges_planeFrame hwf (by decide) cs owned rfl)

theorem planeFrame_length (s : State) (i : Nat) : (planeFrame s i).length = 2 * s.cfg.numModules + 4 := by
  simp [planeFrame, slotCommand, List.length_flatMap, Nat.mul_comm]

theorem updateEvents_length (s : State) : (updateEvents s).length = updateLength s := by
  simp only [updateEvents, updateLength, List.length_flatMap, planeFrame_length, List.map_const', List.length_range,
    List.sum_replicate, smul_eq_mul]

/-! ## A failed event (R126) -/

/-- An UPDATE whose events before number k are accepted comes to offer event k. -/
theorem exchanges_to_event {k : Nat} {ev : TxEvent} (hwf : s.cfg.wellFormed = true) (hk : (updateEvents s)[k]? = some ev) :
    ∃ t, exchanges (((updateEvents s).take k).map accepted) (updateStarted s) t ∧ t.tx = some ev := by
  obtain ⟨hlt, hget⟩ := List.getElem?_eq_some_iff.mp hk
  have hall := exchanges_updateEvents hwf
  rw [← List.take_append_drop k (updateEvents s), List.drop_eq_getElem_cons hlt, hget, List.map_append,
    exchanges_append] at hall
  obtain ⟨t, hbefore, htx, -⟩ := hall
  exact ⟨t, hbefore, htx⟩

/-- The Transport fails ev, and the cleanup of ev is offered to its end, whatever its answers. -/
theorem exchanges_failure {t : State} {ev : TxEvent} {answers : List TxAnswer} (htx : t.tx = some ev)
    (hc : t.cleanup = false) (hlen : answers.length = (cleanupEvents ev).length) :
    exchanges (⟨ev, .fail⟩ :: List.zipWith TxRecord.mk (cleanupEvents ev) answers) t t.finishFail := by
  refine ⟨htx, _, eventAnswered_fail hc, ?_⟩
  have hrelease (a : TxAnswer) : exchanges [⟨.release, a⟩] { t with cleanup := true, tx := some .release } t.finishFail :=
    ⟨rfl, _, eventAnswered_cleanup a rfl, rfl⟩
  have hcs (a b : TxAnswer) :
      exchanges [⟨.csDeassert, a⟩, ⟨.release, b⟩] { t with cleanup := true, tx := some .csDeassert } t.finishFail :=
    ⟨rfl, _, eventAnswered_cleanup a rfl, hrelease b⟩
  cases ev with
  | acquire => rfl
  | csAssert =>
    obtain ⟨a, b, rfl⟩ := List.length_eq_two.mp hlen
    exact hcs a b
  | byte v =>
    obtain ⟨a, b, rfl⟩ := List.length_eq_two.mp hlen
    exact hcs a b
  | csDeassert =>
    obtain ⟨a, rfl⟩ := List.length_eq_one_iff.mp hlen
    exact hrelease a
  | release => rfl

end

/-! ## A whole UPDATE from its acceptance -/

/-- A run accepts UPDATE and takes it through an exchange. -/
theorem run_update {s t : State} {w : Word} {rest : List Word} {rs : List TxRecord} {answers : List (Nat × TxAnswer)}
    {more : List (Option TxAnswer)} (haccepts : acceptsNext s w rest) (hdecode : decode w = .instr .update)
    (hf : s.fatal = false) (hr : true ∉ s.rstIn) (hans : s.txAns = stalledAnswers answers ++ more)
    (h : exchanges rs (updateStarted (afterAccept s rest)) t) (hsnd : answers.map Prod.snd = rs.map TxRecord.answer) :
    ∃ rst, Sys2Proof.core.run (1 + (stalledAnswers answers).length) s = .next (t.withTransport rst more (s.txOut ++ rs)) := by
  have hstep : step s = .next (updateStarted (afterAccept s rest)) :=
    (step_of_acceptsNext haccepts).trans ((runWord_of_decode hdecode).trans (execUpdate_of_running hf))
  obtain ⟨hwf, -⟩ := haccepts
  obtain ⟨rst, hrun⟩ := run_exchange (s := updateStarted (afterAccept s rest)) hwf h hsnd
    (fun hd => hr (List.mem_of_mem_tail hd)) more s.txOut
  refine ⟨rst, (run_add (run_one hstep)).trans ?_⟩
  rw [← hans] at hrun
  exact hrun

/-- Settles O50: the run goes through the exchange of the eight frames, every event accepted. -/
theorem updateEmitsEightFrames : Obligations.UpdateEmitsEightFrames := by
  intro s w rest answers more haccepts hdecode hf hr hsnd hans
  refine ⟨updateEvents_length s, ?_⟩
  have ⟨hwf, _⟩ := haccepts
  have hanswers : answers.map Prod.snd = ((updateEvents s).map accepted).map TxRecord.answer := by
    rw [hsnd, map_answer_accepted, updateEvents_length]
  obtain ⟨rst, hrun⟩ := run_update haccepts hdecode hf hr hans
    (exchanges_updateEvents (s := afterAccept s rest) hwf) hanswers
  exact ⟨_, hrun, rfl, ⟨rfl, rfl⟩, ⟨rfl, rfl, rfl, rfl, rfl, rfl⟩, rfl, hf, rfl, rfl, rfl, rfl⟩

/-- Settles O51: the exchange of the eight frames, cut before event k, goes on with that event's failure and its cleanup. -/
theorem failedUpdateCleansUp : Obligations.FailedUpdateCleansUp := by
  intro s w rest k ev cleanupAnswers answers more haccepts hdecode hf hr hk hlen hsnd hans
  have ⟨hwf, _⟩ := haccepts
  obtain ⟨t, hbefore, htx⟩ := exchanges_to_event (s := afterAccept s rest) hwf hk
  obtain ⟨⟨hcfg, hbuf, hcmd⟩, hclean, hrsp⟩ := hbefore.accepted_frame rfl
  have hanswers : answers.map Prod.snd = (((updateEvents s).take k).map accepted ++
      ⟨ev, .fail⟩ :: List.zipWith TxRecord.mk (cleanupEvents ev) cleanupAnswers).map TxRecord.answer := by
    obtain ⟨hlt, -⟩ := List.getElem?_eq_some_iff.mp hk
    rw [hsnd, List.map_append, List.map_cons, map_answer_accepted, List.length_take_of_le hlt.le,
      map_answer_zipWith hlen, List.append_assoc]
    rfl
  obtain ⟨rst, hrun⟩ := run_update haccepts hdecode hf hr hans
    (hbefore.trans (exchanges_failure htx hclean hlen)) hanswers
  refine ⟨_, hrun, ?_, ⟨?_, rfl⟩, ⟨rfl, rfl, rfl, rfl, rfl, rfl⟩, rfl, hbuf, hcfg, hcmd, rfl⟩
  · simp only [List.append_assoc]
    rfl
  · exact congrArg (· ++ [rspWord .errTransport 0x00#8]) (hrsp (by rw [htx]; rfl))

end Sys2Proof.Machine

/-! # CLEAR and FILL (spec/43_buffer_bulk.md R150, R151) -/

namespace Sys2Proof.Machine

/-- Settles O40: the two ways FILL answers; the second one stores V at every offset of the buffer and nowhere else. -/
theorem fillMeaning : Obligations.FillMeaning := by
  intro v s
  refine ⟨fun hf => ?fatal, fun hf hb => ?filled, (execClear_eq_execFill s).symm⟩
  case fatal => exact ⟨_, exec_of_fatal _ hf, onlyAnswered_respond s _ _⟩
  case filled =>
    have hexec := execFill_of_not_fatal v hf
    obtain ⟨hrest, hdraws, hframe⟩ := execFill_frame hexec
    have hstored : ∀ o < s.cfg.bufLen, Memory.read (s.bufWriteAll v).buf.data o = v ∧
        Memory.read (s.bufWriteAll v).buf.known o = 0xFF#8 := fun o ho => by
      simpa [ho] using Buffer.read_writeAll (v := v) hb (Nat.le_refl _) o
    exact ⟨_, hexec, ⟨rfl, rfl⟩, hrest, hdraws, hstored, hframe⟩

/-- Settles O39: CLEAR is FILL 0x00, so FILL's meaning at V = 0x00 is CLEAR's. -/
theorem clearMeaning : Obligations.ClearMeaning := by
  intro s
  obtain ⟨hfatal, hfilled, hclear⟩ := fillMeaning 0x00#8 s
  rw [hclear] at hfatal hfilled
  exact ⟨hfatal, hfilled⟩

end Sys2Proof.Machine

/-! # Errors, FATAL and stalls (spec/60_exceptions.md R160 to R170) -/

namespace Sys2Proof.Machine

section
variable {s t : State}

/-! ## Illegal words (R163) -/

theorem runWord_of_illegal {w : Word} {why : IllegalWord} (h : decode w = .illegal why) :
    runWord w s = .next (s.respond .errIllegal 0x00#8) := by
  simp only [runWord, h, execIllegal, raise]

/-- Beside its answer, an illegal word uses up only itself and one level of RST. -/
theorem step_of_illegal {w : Word} {rest : List Word} {why : IllegalWord} (haccepts : acceptsNext s w rest)
    (hdecode : decode w = .illegal why) : step s = .next ((afterAccept s rest).respond .errIllegal 0x00#8) :=
  (step_of_acceptsNext haccepts).trans (runWord_of_illegal hdecode)

/-! ## Every turn of a safe state goes on (R161, R48) -/

theorem exec_next (hc : s.cfg.wellFormed = true) (i : Instr) : ∃ t, exec i s = .next t := by
  cases hf : s.fatal with
  | true => exact ⟨_, exec_of_fatal i hf⟩
  | false =>
    cases i with
    | setdot x y f =>
      cases hin : inRangeP s.cfg x y with
      | false => exact ⟨_, execSetdot_of_noTarget f hf (.inl hin)⟩
      | true =>
        cases hlookup : segLookup s.cfg.segTable (pixelCode x y) with
        | none => exact ⟨_, execSetdot_of_noTarget f hf (.inr hlookup)⟩
        | some b => exact ⟨_, execSetdot_of_hit f hf hin (pixelOffset_lt_of_wellFormed hc hin) hlookup⟩
    | setbyte c r v =>
      cases hin : inRangeD s.cfg c r with
      | false => exact ⟨_, execSetbyte_of_outOfRange v hf hin⟩
      | true => exact ⟨_, execSetbyte_of_inRange v hf hin⟩
    | getbyte c r =>
      cases hin : inRangeD s.cfg c r with
      | false => exact ⟨_, execGetbyte_of_outOfRange hf hin⟩
      | true => exact ⟨_, execGetbyte_of_inRange hf hin⟩
    | clear => exact ⟨_, execFill_of_not_fatal 0x00#8 hf⟩
    | fill v => exact ⟨_, execFill_of_not_fatal v hf⟩
    | update => exact ⟨_, execUpdate_of_running hf⟩

theorem runWord_next (hc : s.cfg.wellFormed = true) (w : Word) : ∃ t, runWord w s = .next t := by
  cases hdecode : decode w with
  | instr i =>
    rw [runWord_of_decode hdecode]
    exact exec_next hc i
  | illegal why => exact ⟨_, runWord_of_illegal hdecode⟩

/-- Only a data byte is read from the buffer, and in flight its slot and plane name a byte inside it (R48, R127). -/
theorem eventAccepted_next (hflight : updateInFlight s) (ev : TxEvent) : ∃ t, eventAccepted ev s = .next t := by
  obtain ⟨hcfg, -, -, -, -, hplane, hslot⟩ := hflight
  cases ev with
  | acquire => exact ⟨_, rfl⟩
  | csAssert => exact ⟨_, rfl⟩
  | byte v =>
    cases hhalf : s.ser.half with
    | addr =>
      obtain ⟨d, -, hoffer⟩ := offerDataByte_next (s := { s with ser := { s.ser with half := .data } }) hcfg hslot hplane
      exact ⟨_, by simpa only [eventAccepted, hhalf] using hoffer⟩
    | data =>
      simp only [eventAccepted, hhalf]
      split <;> exact ⟨_, rfl⟩
  | csDeassert => exact ⟨_, rfl⟩
  | release =>
    simp only [eventAccepted]
    split <;> exact ⟨_, rfl⟩

theorem eventAnswered_next (hflight : updateInFlight s) (ev : TxEvent) (a : TxAnswer) :
    ∃ t, eventAnswered ev a s = .next t := by
  cases hc : s.cleanup with
  | true => exact ⟨_, eventAnswered_cleanup a hc⟩
  | false =>
    cases a with
    | accept =>
      rw [eventAnswered_accept hc]
      exact eventAccepted_next hflight ev
    | fail => exact ⟨_, eventAnswered_fail hc⟩

theorem transportTurn_next (hflight : updateInFlight s) (ev : TxEvent) : ∃ t, transportTurn ev s = .next t := by
  unfold transportTurn
  split
  · exact ⟨_, rfl⟩
  · exact ⟨_, rfl⟩
  · refine eventAnswered_next ?_ ev _
    exact hflight

theorem blockTurn_next (hs : s.Inv) : ∃ t, blockTurn s = .next t := by
  unfold blockTurn
  split
  · exact transportTurn_next (hs.in_flight_of_offered ‹_›) _
  split
  · exact ⟨_, rfl⟩
  split
  · exact ⟨_, rfl⟩
  · refine runWord_next ?_ _
    exact hs.cfgOk

theorem machineTurn_next (hs : s.Inv) : ∃ t, machineTurn s = .next t := by
  unfold machineTurn
  split
  · exact ⟨_, rfl⟩
  · exact blockTurn_next (hs.of_ports s.cmdIn s.txAns _ s.txOut)
  · exact blockTurn_next hs

/-! ## A Transport that answers nothing (R170) -/

/-- A step without an answer only uses up one absence of it, if any is listed, and one level of RST. -/
theorem step_of_silence {ev : TxEvent} (hc : s.cfg.wellFormed = true) (hr : s.rstIn.head? ≠ some true)
    (htx : s.tx = some ev) (hsilent : ∀ a ∈ s.txAns, a = none) :
    step s = .next { s with rstIn := s.rstIn.tail, txAns := s.txAns.tail } := by
  cases hans : s.txAns with
  | nil =>
    simp only [step_eq_blockTurn hc hr, blockTurn, htx, transportTurn, hans, List.tail_nil]
  | cons a rest =>
    obtain rfl : a = none := hsilent a (by simp [hans])
    exact step_of_stall hc hr htx hans

/-- The silence goes on for any number of steps, past the end of the listed answers too. -/
theorem run_silence {ev : TxEvent} (n : Nat) (hc : s.cfg.wellFormed = true) (hr : true ∉ s.rstIn)
    (htx : s.tx = some ev) (hsilent : ∀ a ∈ s.txAns, a = none) :
    Sys2Proof.core.run n s = .next { s with rstIn := s.rstIn.drop n, txAns := s.txAns.drop n } := by
  induction n generalizing s with
  | zero => rfl
  | succ n ih =>
    have hstep := step_of_silence hc (fun h => hr (List.mem_of_mem_head? h)) htx hsilent
    have hrun := ih (s := { s with rstIn := s.rstIn.tail, txAns := s.txAns.tail }) hc
      (fun h => hr (List.mem_of_mem_tail h)) htx (fun a ha => hsilent a (List.mem_of_mem_tail ha))
    rw [run_succ hstep, hrun]
    simp only [List.drop_tail]

/-! ## FATAL stays set (R165) -/

theorem eventAnswered_keeps_fatal {ev : TxEvent} {a : TxAnswer} (h : eventAnswered ev a s = .next t)
    (hf : s.fatal = true) : t.fatal = true := by
  rcases eventAnswered_cases h with ⟨-, rfl⟩ | ⟨-, -, hacc⟩ | ⟨-, -, rfl⟩
  · rcases cleanupAnswered_cases ev s with ⟨-, heq⟩ | ⟨-, heq⟩ <;> rw [heq]
    · exact hf
    · rfl
  · exact (eventAccepted_frame hacc).2.1.trans hf
  · rcases txFail_cases ev s with ⟨-, heq⟩ | ⟨-, heq⟩ | ⟨-, heq⟩ <;> rw [heq]
    · rfl
    · exact hf
    · exact hf

theorem transportTurn_keeps_fatal {ev : TxEvent} (h : transportTurn ev s = .next t) (hf : s.fatal = true) :
    t.fatal = true := by
  rcases transportTurn_cases h with ⟨-, rfl⟩ | ⟨rest, -, rfl⟩ | ⟨a, rest, -, hans⟩
  · exact hf
  · exact hf
  · exact eventAnswered_keeps_fatal hans hf

/-! ## Which status is reported (R167) -/

theorem exec_of_outOfRange {i : Instr} {c r : Nat} (hf : s.fatal = false) (hi : i = .getbyte c r ∨ ∃ v, i = .setbyte c r v)
    (hout : ¬ (c < s.cfg.digitCols ∧ r < s.cfg.digitRows)) : exec i s = .next (s.respond .errRange 0x00#8) := by
  rcases hi with rfl | ⟨v, rfl⟩
  · exact execGetbyte_of_outOfRange hf (inRangeD_eq_false hout)
  · exact execSetbyte_of_outOfRange v hf (inRangeD_eq_false hout)

/-- An answer has one status. -/
theorem status_eq_of_answered {b : Buffer} {n : Nat} {st st' : Status} {d d' : Byte}
    (h : answered s ({ s with buf := b, draws := n }.respond st d) st' d') : st = st' := by
  obtain ⟨hrsp, -⟩ := h
  exact (rspWord_inj (List.singleton_inj.mp (List.append_cancel_left hrsp))).1

theorem not_answered_errTransport {b : Buffer} {n : Nat} {st : Status} {d d' : Byte} (hne : st ≠ .errTransport) :
    ¬ answered s ({ s with buf := b, draws := n }.respond st d) .errTransport d' :=
  fun h => hne (status_eq_of_answered h)

/-- UPDATE's acceptance makes no response, and the other commands never reach the Transport. -/
theorem exec_not_answered_errTransport {i : Instr} {d : Byte} (h : exec i s = .next t) :
    ¬ answered s t .errTransport d := by
  cases i with
  | setdot x y f =>
    rcases execSetdot_cases h with ⟨-, rfl⟩ | ⟨-, -, rfl⟩ | ⟨-, -, -, k, -, rfl⟩ <;> exact not_answered_errTransport nofun
  | setbyte c r v =>
    rcases execSetbyte_cases h with ⟨-, rfl⟩ | ⟨-, -, rfl⟩ | ⟨-, -, -, rfl⟩ <;> exact not_answered_errTransport nofun
  | getbyte c r =>
    rcases execGetbyte_cases h with ⟨-, rfl⟩ | ⟨-, -, rfl⟩ | ⟨-, -, -, rfl⟩ <;> exact not_answered_errTransport nofun
  | clear =>
    rcases execClear_cases h with ⟨-, rfl⟩ | ⟨-, rfl⟩ <;> exact not_answered_errTransport nofun
  | fill v =>
    rcases execFill_cases h with ⟨-, rfl⟩ | ⟨-, rfl⟩ <;> exact not_answered_errTransport nofun
  | update =>
    rcases execUpdate_cases h with ⟨-, rfl⟩ | ⟨-, rfl⟩
    · exact not_answered_errTransport nofun
    · exact fun ⟨_, hport⟩ => nomatch hport

theorem runWord_not_answered_errTransport {w : Word} {d : Byte} (h : runWord w s = .next t) :
    ¬ answered s t .errTransport d := by
  rcases runWord_cases h with ⟨i, -, hexec⟩ | ⟨why, -, rfl⟩
  · exact exec_not_answered_errTransport hexec
  · exact not_answered_errTransport nofun

end

/-! ## The statements -/

/-- Settles O10: the words listed are those outside the opcode map, and each is answered with nothing else changed. -/
theorem illegalWordAnswersErrIllegal : Obligations.IllegalWordAnswersErrIllegal := by
  intro s w rest haccepts hw
  obtain ⟨why, hdecode⟩ := (illegalExactlyOutsideTheMap w).mpr hw
  exact ⟨_, step_of_illegal haccepts hdecode, onlyAnswered_respond _ _ _⟩

/-- Settles O15: the configuration is well formed, so a step is a turn, and a turn of a safe state goes on. -/
theorem safeStatesNeverStop : Obligations.SafeStatesNeverStop := by
  intro s hs
  rw [step_of_wellFormed hs.cfgOk]
  exact machineTurn_next hs

/-- Settles O17: the silent run changes only what is left of RST and of the listed answers, and PORT was busy. -/
theorem stallIsAHang : Obligations.StallIsAHang := by
  intro s ev n hs htx hsilent hrst
  obtain ⟨-, -, hport, -⟩ := hs.in_flight_of_offered htx
  exact ⟨_, run_silence n hs.cfgOk hrst htx hsilent, htx, hport, rfl, rfl, rfl, rfl, rfl, rfl⟩

/-- Settles O20: FATAL answers every command but no illegal word, and no turn but RST's clears it. -/
theorem fatalIsSticky : Obligations.FatalIsSticky := by
  refine ⟨fun i s hf => ?legal, fun s w rest why _ haccepts hdecode => ?illegal, fun s t hf h => ?sticky⟩
  case legal => exact ⟨_, exec_of_fatal i hf, onlyAnswered_respond s _ _⟩
  case illegal => exact ⟨_, step_of_illegal haccepts hdecode, onlyAnswered_respond _ _ _⟩
  case sticky =>
    rcases step_turn_cases h with ⟨rest, hr, -⟩ | ⟨ev, -, hturn⟩ | ⟨-, rfl⟩ | ⟨-, w, rest, -, hword⟩
    · exact .inr ⟨rest, hr⟩
    · exact .inl (transportTurn_keeps_fatal hturn hf)
    · exact .inl hf
    · obtain ⟨-, hfatal, -⟩ := runWord_keeps_cfg_and_flags hword
      exact .inl (hfatal.trans hf)

/-- Settles O22: the decoder is asked before FATAL, FATAL before the range, and the Transport only after acceptance. -/
theorem errorPriority : Obligations.ErrorPriority := by
  intro s w rest haccepts
  have hcommand := stepRunsTheDecodedCommand s w rest
  refine ⟨fun why hdecode => ?illegal, fun i hdecode hf => ?fatal, fun i hdecode hf hrange => ?range,
    fun t h => ?transport⟩
  case illegal => exact ⟨_, step_of_illegal haccepts hdecode, rfl, rfl⟩
  case fatal => exact ⟨_, (hcommand i haccepts hdecode).trans (exec_of_fatal i hf), rfl, rfl⟩
  case range =>
    obtain ⟨c, r, hi, hout⟩ := hrange
    exact ⟨_, (hcommand i haccepts hdecode).trans (exec_of_outOfRange (s := afterAccept s rest) hf hi hout), rfl, rfl⟩
  case transport => exact (runWord_not_answered_errTransport ((step_of_acceptsNext haccepts).symm.trans h) :)

end Sys2Proof.Machine

/-! # Latency of the commands (spec/70_reset_and_hazards.md R186, R187) -/

namespace Sys2Proof.Machine

/-- Only UPDATE's acceptance leaves its command without an answer, and only it changes more than the buffer and the draws. -/
theorem exec_answers_of_ne_update {s t : State} {i : Instr} (hne : i ≠ .update) (h : exec i s = .next t) :
    ∃ st d, answered s t st d ∧ restUnchanged s t := by
  rcases exec_cases h with ⟨st, rfl⟩ | ⟨c, r, -, -, rfl⟩ | ⟨b, -, -, -, rfl⟩ | ⟨rfl, -, -⟩
  · exact ⟨_, _, ⟨rfl, rfl⟩, restUnchanged_answer s s.buf s.draws _ _⟩
  · exact ⟨_, _, ⟨rfl, rfl⟩, restUnchanged_answer s s.buf (s.draws + 1) _ _⟩
  · exact ⟨_, _, ⟨rfl, rfl⟩, restUnchanged_answer s b s.draws _ _⟩
  · exact absurd rfl hne

/-- Settles O47: the step of acceptance runs the command, which goes on and, not being UPDATE, answers with TX and the words
left on CMD as acceptance left them. -/
theorem bufferCommandsCompleteInOneStep : Obligations.BufferCommandsCompleteInOneStep := by
  intro s w rest i hs haccepts hdecode hne
  obtain ⟨t, hexec⟩ := exec_next (s := afterAccept s rest) hs.cfgOk i
  obtain ⟨st, d, hanswered, -, -, -, htx, -, hcmd, -⟩ := exec_answers_of_ne_update hne hexec
  have hstep := stepRunsTheDecodedCommand s w rest i haccepts hdecode
  obtain ⟨-, hnone, -⟩ := haccepts
  exact ⟨t, st, d, hstep.trans hexec, hanswered, htx.trans hnone, hcmd⟩

end Sys2Proof.Machine
